-- ==== Sys2Proof/Word.lean ====
section
/-! DEFINITION. The word types of the LS-8 core: spec/00_scope.md R7, R8. -/

namespace Sys2Proof

/-- A register, memory cell or operand byte: an unsigned 8-bit value (R8). -/
abbrev Byte := BitVec 8

/-- A register number that names a register, 0 to 7 (R9). -/
abbrev RegIndex := Fin 8

/-- The register file: eight bytes, one bank (R9). -/
abbrev RegFile := Vector Byte 8

end Sys2Proof
end

