-- ==== Sys2Proof/Machine/State.lean ====
section
/-! DEFINITION. The state of the LS-8 core: spec/10_state.md, spec/60_exceptions.md R80 to R89. -/

namespace Sys2Proof.Machine

/-- Memory: the listed cells, in the canonical form of `Memory.wf` (R24). -/
abbrev Memory := List Host.Cell

/-- What an address that is not listed reads as: every cell is zero-initialised (R24, R32). -/
def Memory.unlisted : Byte := 0#8

/-- The canonical form from address `lo` up: addresses strictly rising and within 0..255, no cell
equal to what an unlisted address reads as. -/
def Memory.wfFrom : Nat → Memory → Bool
  | _, [] => true
  | lo, (a, v) :: m =>
    decide (lo ≤ a) && decide (a < 256) && v != Memory.unlisted && Memory.wfFrom (a + 1) m

/-- The canonical form of memory. -/
def Memory.wf (m : Memory) : Bool := Memory.wfFrom 0 m

/-- The flags register FL (R14). -/
structure FlagReg where
  /-- `FL.E`, bit 0: equal. -/
  e : Bool
  /-- `FL.G`, bit 1: greater than. -/
  g : Bool
  /-- `FL.L`, bit 2: less than. -/
  l : Bool
  deriving DecidableEq, Repr

/-- The engine states (R16). -/
inductive EngineState where
  /-- RUNNING: one instruction per step. -/
  | running
  /-- HALTED: entered by HLT alone; final. -/
  | halted
  /-- FAULTED: entered by any fault; no step, not final. -/
  | faulted
  deriving DecidableEq, Repr

/-- The error kinds (R80). -/
inductive FaultKind where
  | invalidInstruction | outOfBounds | divideByZero | unsupportedOperation
  | programNotFound | invalidLiteral
  deriving DecidableEq, Repr

/-- The kind-specific value of a fault record (R80). -/
inductive FaultDetail where
  /-- InvalidInstruction: `opcode`. -/
  | opcode (op : Byte)
  /-- OutOfBounds: `space: memory`, the address outside 0..255. -/
  | memoryIndex (index : Nat)
  /-- OutOfBounds: `space: register`, the operand byte above 7. -/
  | registerIndex (index : Byte)
  /-- OutOfBounds: `space: stack`, the new SP that would leave 0..255 (−1 or 256). -/
  | stackValue (value : Int)
  /-- DivideByZero: the register that held 0. -/
  | divisorRegister (r : RegIndex)
  /-- UnsupportedOperation: the operation name. -/
  | operation (name : String)
  /-- ProgramNotFound (load time): no detail. -/
  | noSource
  /-- InvalidLiteral (load time): the offending line. -/
  | line (text : List Char)
  deriving DecidableEq, Repr

/-- The fault record (R17). -/
structure FaultRecord where
  /-- The address of the faulting instruction's opcode byte. -/
  pc : Nat
  /-- The fetched opcode byte, none when the fetch itself faulted. -/
  opcode : Option Byte
  /-- The kind-specific value. -/
  detail : FaultDetail
  deriving DecidableEq, Repr

/-- One record of the trace port (R95): pc, the opcode and the two bytes after it, and the eight
registers as they are before the instruction runs. -/
structure TraceRecord where
  pc : Nat
  op : Byte
  opA : Byte
  opB : Byte
  x : RegFile
  deriving DecidableEq, Repr

/-- The machine state: everything spec/10_state.md gives the core. -/
structure State where
  /-- The 256 memory cells (R24). -/
  mem : Memory
  /-- The eight registers; register 7 is SP (R9, R10). -/
  x : RegFile
  /-- The program counter, a natural number (R13, D5). -/
  pc : Nat
  /-- The flags register FL (R14). -/
  fl : FlagReg
  /-- RUNNING, HALTED or FAULTED (R16). -/
  state : EngineState
  /-- The fault record, present in FAULTED (R17). -/
  fault : Option FaultRecord
  /-- The output port's sequence (R18). -/
  out : List Byte
  /-- The latched opcode byte (R21). -/
  op : Byte
  /-- The latched first candidate operand (R21). -/
  opA : Byte
  /-- The latched second candidate operand (R21). -/
  opB : Byte
  /-- What the trace port has been offered, oldest first (R95; log entry 7). -/
  trace : List TraceRecord
  deriving DecidableEq, Repr

/-- The machine right after reset, the run started (R22, R98, R102). UNVERIFIED (unsafe): FL is
0 by the spec's decision D6, not by the document (log entry 3). DESIGN CHOICE (unsafe): the fetch latches are 0, where R22 says unspecified and
unobservable (log entry 5). DEDUCED (unsafe): `state` is RUNNING, since the run is started in the
reset state (log entry 6), and nothing has been traced (log entry 7). -/
def State.reset : State where
  mem := []
  x := Vector.replicate 8 0#8
  pc := 0
  fl := ⟨false, false, false⟩
  state := .running
  fault := none
  out := []
  op := 0#8
  opA := 0#8
  opB := 0#8
  trace := []

/-- Why `step` has no step to take. The core's own faults (R80) are NOT here: they are
architectural, the step takes them and answers the FAULTED state (R87). DESIGN CHOICE (safe): the
spec gives no step in HALTED and FAULTED, so `step` stops under a name (log entry 4). -/
inductive Fault where
  /-- Raised by `step` alone, in HALTED: the engine takes no step (R16, R47). Safe: the hardware does
  nothing there either. -/
  | engineHalted
  /-- Raised by `step` alone, in FAULTED: the engine takes no step (R16, R47, R89). Safe, as above. -/
  | engineFaulted
  deriving DecidableEq, Repr

/-- Why an instruction has no meaning here. -/
inductive Refusal where
  /-- Raised by an arm of `exec` for an instruction not modelled; no arm raises it now. Safe. -/
  | notModelled (mnemonic : String)
  deriving DecidableEq, Repr

end Sys2Proof.Machine
end

