-- ==== Sys2Proof/Machine/Ops.lean ====
section
/-! DEFINITION. The named operations over memory and registers, and taking a fault:
spec/10_state.md, spec/20_memory.md, spec/42_stack.md R70, spec/60_exceptions.md R87 to R89.
There is no operation that returns from a fault: R89 gives none. -/

namespace Sys2Proof.Machine

/-- The codes of the error kinds (R80, D22). -/
def FaultKind.code : FaultKind → Nat
  | .invalidInstruction => 1
  | .outOfBounds => 2
  | .divideByZero => 3
  | .unsupportedOperation => 4
  | .programNotFound => 5
  | .invalidLiteral => 6

/-- The kind of a fault is a function of its detail (R80), so it is computed and not stored. -/
def FaultDetail.kind : FaultDetail → FaultKind
  | .opcode _ => .invalidInstruction
  | .memoryIndex _ | .registerIndex _ | .stackValue _ => .outOfBounds
  | .divisorRegister _ => .divideByZero
  | .operation _ => .unsupportedOperation
  | .noSource => .programNotFound
  | .line _ => .invalidLiteral

/-- The record's `kind` field (R17). -/
def FaultRecord.kind (r : FaultRecord) : FaultKind := r.detail.kind

/-- What an operation answers: a value, or the fault it raises (00_scope.md, `raise`). -/
abbrev Raises := Except FaultDetail

/-- The least non-negative remainder modulo 256, as a byte (00_scope.md section 4, R57). -/
def mod256 (n : Nat) : Byte := BitVec.ofNat 8 n

/-- The byte a memory holds at an address (R25, R32). -/
def Memory.read : Memory → Nat → Byte
  | [], _ => Memory.unlisted
  | (b, w) :: m, a => if a = b then w else Memory.read m a

/-- The memory with one byte set and no other changed (R25), in canonical form. -/
def Memory.write : Memory → Nat → Byte → Memory
  | [], a, v => if v = Memory.unlisted then [] else [(a, v)]
  | (b, w) :: m, a, v =>
    if a < b then (if v = Memory.unlisted then (b, w) :: m else (a, v) :: (b, w) :: m)
    else if a = b then (if v = Memory.unlisted then m else (a, v) :: m)
    else (b, w) :: Memory.write m a v

/-- `MemRead(a, 1)`: bounds-checked, never a wrap (R25, R26). -/
def State.memRead (s : State) (a : Nat) : Raises Byte :=
  if a < 256 then .ok (s.mem.read a) else .error (.memoryIndex a)

/-- `MemWrite(a, 1, v)`: bounds-checked, never a wrap (R25, R26). -/
def State.memWrite (s : State) (a : Nat) (v : Byte) : Raises State :=
  if a < 256 then .ok { s with mem := s.mem.write a v } else .error (.memoryIndex a)

/-- Reads `x[r]` (R9). -/
def State.readReg (s : State) (r : RegIndex) : Byte := s.x[r]

/-- Writes `x[r]` (R9): every register can be written and reads back what was written. -/
def State.writeReg (s : State) (r : RegIndex) (v : Byte) : State := { s with x := s.x.set r v }

/-- The stack pointer register, register 7 (R10). -/
def spIndex : RegIndex := 7

/-- SP (R10). -/
def State.sp (s : State) : Byte := s.readReg spIndex

/-- Writes FL (R14, R15). -/
def State.writeFlags (s : State) (f : FlagReg) : State := { s with fl := f }

/-- Advances the program counter by a width (R13, R50); it is a natural number and never wraps. -/
def State.advance (s : State) (n : Nat) : State := { s with pc := s.pc + n }

/-- An explicit write of the program counter; every target is a byte (R73). -/
def State.jump (s : State) (t : Byte) : State := { s with pc := t.toNat }

/-- Appends a byte to the output port (R18). -/
def State.emit (s : State) (v : Byte) : State := { s with out := s.out ++ [v] }

/-- HALTED (R16, R55). -/
def State.halt (s : State) : State := { s with state := .halted }

/-- SP less 1, the first half of a push; faults when SP is 0 and never wraps (R70). -/
def State.spDown (s : State) : Raises State :=
  if s.sp = 0#8 then .error (.stackValue (-1)) else .ok (s.writeReg spIndex (s.sp - 1#8))

/-- SP plus 1, the second half of a pop; faults when SP is 255 and never wraps (R70). -/
def State.spUp (s : State) : Raises State :=
  if s.sp = 255#8 then .error (.stackValue 256) else .ok (s.writeReg spIndex (s.sp + 1#8))

/-- TAKING A FAULT (R87, R88): the engine goes to FAULTED and records the fault, with the pc of the
faulting instruction and its opcode byte, none when the fetch faulted (R17). Nothing else changes. -/
def State.takeFault (s : State) (opcode : Option Byte) (d : FaultDetail) : State :=
  { s with state := .faulted, fault := some { pc := s.pc, opcode := opcode, detail := d } }

/-- What a handler run in state `s` answers: the state it computed, or, where it raised a fault, `s`
itself with the fault taken: none of the handler's writes lands (R88). The record's opcode is the
latched byte (R17, R21). DEDUCED (safe): a run-time fault is an effect on the state, so the outcome is
a next state (log entry 13). -/
def deliver (s : State) : Raises State → Host.Outcome State Fault Refusal
  | .ok t => .next t
  | .error d => .next (s.takeFault (some s.op) d)

end Sys2Proof.Machine
end

