-- ==== Sys2Proof/Machine/Flags.lean ====
section
/-! DEFINITION. The flag computations: spec/10_state.md R14, R15; spec/41_alu.md R61. -/

namespace Sys2Proof.Machine

/-- What CMP leaves in FL: the unsigned comparison, all three bits written (R61). -/
def cmpFlags (a b : Byte) : FlagReg where
  e := decide (a.toNat = b.toNat)
  g := decide (a.toNat > b.toNat)
  l := decide (a.toNat < b.toNat)

/-- FL shown as a byte, `0b00000LGE` (R14, D7). -/
def FlagReg.toByte (f : FlagReg) : Byte :=
  BitVec.ofNat 8 (f.e.toNat + 2 * f.g.toNat + 4 * f.l.toNat)

/-- The reachable values of FL: at most one bit set (R14). -/
def FlagReg.exclusive (f : FlagReg) : Bool := decide (f.e.toNat + f.g.toNat + f.l.toNat ≤ 1)

end Sys2Proof.Machine
end

