-- ==== Sys2Proof/Machine/Operands.lean ====
section
/-! DEFINITION. Operand forms: spec/30_encoding.md R40, R41; spec/10_state.md R11. -/

namespace Sys2Proof.Machine

/-- `reg(i)`: a register operand. The whole byte is the register number; 8 and more raises
OutOfBounds and is not masked (R11, R40). -/
def regOperand (i : Byte) : Raises RegIndex :=
  if h : i.toNat < 8 then .ok ⟨i.toNat, h⟩ else .error (.registerIndex i)

/-- An immediate operand: the whole byte, unchanged (R40). -/
def immOperand (i : Byte) : Byte := i

end Sys2Proof.Machine
end

