-- ==== Sys2Proof/Machine/Alu.lean ====
section
/-! DEFINITION. The ALU and its ten instructions: spec/41_alu.md. -/

namespace Sys2Proof.Machine

/-- The ALU's operations (R56). `other` is any name outside the table: no instruction passes one, and
the contract answers it with UnsupportedOperation (R58, R84). DESIGN CHOICE (safe): the name is held as
a string (log entry 14). -/
inductive AluOp where
  | add | mul | cmp | and | or | xor | not | shl | shr | mod
  | other (name : String)
  deriving DecidableEq, Repr

/-- ADD (R59). -/
def aluAdd (a b : Byte) : Byte := mod256 (a.toNat + b.toNat)

/-- MUL: the low byte of the product (R60). -/
def aluMul (a b : Byte) : Byte := mod256 (a.toNat * b.toNat)

/-- AND (R62). -/
def aluAnd (a b : Byte) : Byte := a &&& b

/-- OR (R63). -/
def aluOr (a b : Byte) : Byte := a ||| b

/-- XOR (R64). -/
def aluXor (a b : Byte) : Byte := a ^^^ b

/-- NOT: `255 - a` (R65). -/
def aluNot (a : Byte) : Byte := mod256 (255 - a.toNat)

/-- SHL: the amount is the whole byte, not masked (R66). -/
def aluShl (a n : Byte) : Byte := mod256 (a.toNat * 2 ^ n.toNat)

/-- SHR: logical, the amount is the whole byte (R67). -/
def aluShr (a n : Byte) : Byte := mod256 (a.toNat / 2 ^ n.toNat)

/-- MOD for a divisor other than 0: the unsigned remainder (R68). -/
def aluMod (a b : Byte) : Byte := mod256 (a.toNat % b.toNat)

/-- The ALU's contract, `apply(operation, destination_register, source_register)` (R56, R57): every
operation but CMP writes its result to the destination and nothing else, CMP writes FL and no
register, MOD by 0 raises DivideByZero (R68), an operation outside the table UnsupportedOperation
(R58). NOT ignores the source (R65). -/
def aluApply (operation : AluOp) (d src : RegIndex) (s : State) : Raises State :=
  let a := s.readReg d
  let b := s.readReg src
  match operation with
  | .add => .ok (s.writeReg d (aluAdd a b))
  | .mul => .ok (s.writeReg d (aluMul a b))
  | .cmp => .ok (s.writeFlags (cmpFlags a b))
  | .and => .ok (s.writeReg d (aluAnd a b))
  | .or => .ok (s.writeReg d (aluOr a b))
  | .xor => .ok (s.writeReg d (aluXor a b))
  | .not => .ok (s.writeReg d (aluNot a))
  | .shl => .ok (s.writeReg d (aluShl a b))
  | .shr => .ok (s.writeReg d (aluShr a b))
  | .mod => if b = 0#8 then .error (.divisorRegister src) else .ok (s.writeReg d (aluMod a b))
  | .other name => .error (.operation name)

/-- An ALU instruction of format RR: A is checked before B, then the ALU is called (R56, R86). -/
def aluRR (operation : AluOp) (a b : Byte) (s : State) : Host.Outcome State Fault Refusal :=
  deliver s do
    let d ← regOperand a
    let src ← regOperand b
    let t ← aluApply operation d src s
    return t.advance 3

/-- MUL (R60). -/
def execMul (a b : Byte) (s : State) : Host.Outcome State Fault Refusal := aluRR .mul a b s

/-- ADD (R59). -/
def execAdd (a b : Byte) (s : State) : Host.Outcome State Fault Refusal := aluRR .add a b s

/-- CMP (R61). -/
def execCmp (a b : Byte) (s : State) : Host.Outcome State Fault Refusal := aluRR .cmp a b s

/-- AND (R62). -/
def execAnd (a b : Byte) (s : State) : Host.Outcome State Fault Refusal := aluRR .and a b s

/-- OR (R63). -/
def execOr (a b : Byte) (s : State) : Host.Outcome State Fault Refusal := aluRR .or a b s

/-- XOR (R64). -/
def execXor (a b : Byte) (s : State) : Host.Outcome State Fault Refusal := aluRR .xor a b s

/-- SHL (R66). -/
def execShl (a b : Byte) (s : State) : Host.Outcome State Fault Refusal := aluRR .shl a b s

/-- SHR (R67). -/
def execShr (a b : Byte) (s : State) : Host.Outcome State Fault Refusal := aluRR .shr a b s

/-- MOD (R68). -/
def execMod (a b : Byte) (s : State) : Host.Outcome State Fault Refusal := aluRR .mod a b s

/-- NOT (R65): format R; there is no source, so the destination stands in its place, which the ALU
ignores. DESIGN CHOICE (safe; log entry 14). -/
def execNot (a : Byte) (s : State) : Host.Outcome State Fault Refusal :=
  deliver s do
    let d ← regOperand a
    let t ← aluApply .not d d s
    return t.advance 2

end Sys2Proof.Machine
end

