-- ==== Sys2Proof/Machine/Control.lean ====
section
/-! DEFINITION. CALL, RET, JMP, JEQ and JNE: spec/43_control_transfer.md. -/

namespace Sys2Proof.Machine

/-- CALL (R74): pushes pc + 2 and jumps to the register, which is read after the decrement. The
return address fits one byte wherever a fetch succeeds (pc ≤ 253); DESIGN CHOICE (unsafe in states no
run reaches): from a greater pc its low byte is pushed (log entry 10). -/
def execCall (a : Byte) (s : State) : Host.Outcome State Fault Refusal :=
  deliver s do
    let r ← regOperand a
    let t ← s.spDown
    let u ← t.memWrite t.sp.toNat (mod256 (s.pc + 2))
    return u.jump (u.readReg r)

/-- RET (R75). -/
def execRet (s : State) : Host.Outcome State Fault Refusal :=
  deliver s do
    let t ← s.spUp
    let target ← s.memRead s.sp.toNat
    return t.jump target

/-- JMP (R76). -/
def execJmp (a : Byte) (s : State) : Host.Outcome State Fault Refusal :=
  deliver s do
    let r ← regOperand a
    return s.jump (s.readReg r)

/-- JEQ (R77): the operand is checked whether or not the branch is taken. -/
def execJeq (a : Byte) (s : State) : Host.Outcome State Fault Refusal :=
  deliver s do
    let r ← regOperand a
    return if s.fl.e then s.jump (s.readReg r) else s.advance 2

/-- JNE (R78): the operand is checked whether or not the branch is taken. -/
def execJne (a : Byte) (s : State) : Host.Outcome State Fault Refusal :=
  deliver s do
    let r ← regOperand a
    return if s.fl.e then s.advance 2 else s.jump (s.readReg r)

end Sys2Proof.Machine
end

