-- ==== Sys2Proof/Machine/RegisterOutputHalt.lean ====
section
/-! DEFINITION. LDI, PRN and HLT: spec/40_register_output_halt.md. -/

namespace Sys2Proof.Machine

/-- LDI (R53). -/
def execLdi (a imm : Byte) (s : State) : Host.Outcome State Fault Refusal :=
  deliver s do
    let d ← regOperand a
    return (s.writeReg d (immOperand imm)).advance 3

/-- PRN (R54). -/
def execPrn (a : Byte) (s : State) : Host.Outcome State Fault Refusal :=
  deliver s do
    let r ← regOperand a
    return (s.emit (s.readReg r)).advance 2

/-- HLT (R55). -/
def execHlt (s : State) : Host.Outcome State Fault Refusal :=
  deliver s (.ok (s.halt.advance 1))

end Sys2Proof.Machine
end

