-- ==== Sys2Proof/Machine/Stack.lean ====
section
/-! DEFINITION. PUSH and POP: spec/42_stack.md. -/

namespace Sys2Proof.Machine

/-- PUSH (R71): SP is decremented before the register is read, so `PUSH R7` stores the new SP. -/
def execPush (a : Byte) (s : State) : Host.Outcome State Fault Refusal :=
  deliver s do
    let r ← regOperand a
    let t ← s.spDown
    let u ← t.memWrite t.sp.toNat (t.readReg r)
    return u.advance 2

/-- POP (R72): SP is incremented after the register is written, so `POP R7` leaves the popped byte
plus 1, and faults when that byte is 255. -/
def execPop (a : Byte) (s : State) : Host.Outcome State Fault Refusal :=
  deliver s do
    let r ← regOperand a
    let v ← s.memRead s.sp.toNat
    let t ← (s.writeReg r v).spUp
    return t.advance 2

end Sys2Proof.Machine
end

