-- ==== Sys2Proof/Syntax.lean ====
section
/-! DEFINITION. The instructions of the LS-8 core: spec/30_encoding.md R37 to R43, spec/opcode_table.json. -/

namespace Sys2Proof

/-- The twenty operations of the dispatch table (R42), in the order of spec/opcode_table.json. -/
inductive Mnemonic where
  | ldi | prn | hlt | mul | add | push | pop | call | ret | cmp
  | jmp | jeq | jne | and | or | xor | shl | shr | mod | not
  deriving DecidableEq, Repr

/-- Every mnemonic once: the rows of the dispatch table (R42). -/
def Mnemonic.all : List Mnemonic :=
  [.ldi, .prn, .hlt, .mul, .add, .push, .pop, .call, .ret, .cmp,
   .jmp, .jeq, .jne, .and, .or, .xor, .shl, .shr, .mod, .not]

/-- The four instruction formats (R39). -/
inductive Format where
  /-- `N`: the opcode byte alone. -/
  | N
  /-- `R`: opcode, register A. -/
  | R
  /-- `RR`: opcode, register A, register B. -/
  | RR
  /-- `RI`: opcode, register A, immediate byte. -/
  | RI
  deriving DecidableEq, Repr

/-- The instructions, one constructor for each row of spec/opcode_table.json. An operand is the
WHOLE operand byte: a register operand of 8 to 255 is an instruction too, which raises
OutOfBounds when it runs (R40), so the syntax does not shut it out. -/
inductive Instr where
  /-- LDI: load immediate (R53). -/
  | ldi (a imm : Byte)
  /-- PRN: print register (R54). -/
  | prn (a : Byte)
  /-- HLT: halt (R55). -/
  | hlt
  /-- MUL: multiply (R60). -/
  | mul (a b : Byte)
  /-- ADD: add (R59). -/
  | add (a b : Byte)
  /-- PUSH: push register (R71). -/
  | push (a : Byte)
  /-- POP: pop into register (R72). -/
  | pop (a : Byte)
  /-- CALL: call subroutine (R74). -/
  | call (a : Byte)
  /-- RET: return from subroutine (R75). -/
  | ret
  /-- CMP: compare (R61). -/
  | cmp (a b : Byte)
  /-- JMP: jump (R76). -/
  | jmp (a : Byte)
  /-- JEQ: jump if equal (R77). -/
  | jeq (a : Byte)
  /-- JNE: jump if not equal (R78). -/
  | jne (a : Byte)
  /-- AND: bitwise and (R62). -/
  | and (a b : Byte)
  /-- OR: bitwise or (R63). -/
  | or (a b : Byte)
  /-- XOR: bitwise exclusive or (R64). -/
  | xor (a b : Byte)
  /-- SHL: shift left (R66). -/
  | shl (a b : Byte)
  /-- SHR: shift right (R67). -/
  | shr (a b : Byte)
  /-- MOD: remainder (R68). -/
  | mod (a b : Byte)
  /-- NOT: bitwise complement (R65). -/
  | not (a : Byte)
  deriving DecidableEq, Repr

/-- The mnemonic of an instruction. -/
def Instr.mnemonic : Instr → Mnemonic
  | .ldi _ _ => .ldi
  | .prn _ => .prn
  | .hlt => .hlt
  | .mul _ _ => .mul
  | .add _ _ => .add
  | .push _ => .push
  | .pop _ => .pop
  | .call _ => .call
  | .ret => .ret
  | .cmp _ _ => .cmp
  | .jmp _ => .jmp
  | .jeq _ => .jeq
  | .jne _ => .jne
  | .and _ _ => .and
  | .or _ _ => .or
  | .xor _ _ => .xor
  | .shl _ _ => .shl
  | .shr _ _ => .shr
  | .mod _ _ => .mod
  | .not _ => .not

/-- The operand bytes that name registers, A before B (R39, R41). -/
def Instr.registerBytes : Instr → List Byte
  | .ldi a _ => [a]
  | .prn a | .push a | .pop a | .call a | .jmp a | .jeq a | .jne a | .not a => [a]
  | .hlt | .ret => []
  | .mul a b | .add a b | .cmp a b | .and a b | .or a b | .xor a b
  | .shl a b | .shr a b | .mod a b => [a, b]

end Sys2Proof
end

