-- ==== Sys2Proof/Config.lean ====
section
/-! DEFINITION. What an implementation of the LS-8 core fixes: spec/00_scope.md R7, spec/92_eei_decisions.md. -/

namespace Sys2Proof

/-- The parameter `OPCODE_MAP` (R7, R42; D3): the opcode byte of each instruction. -/
abbrev OpcodeMap := Mnemonic → Byte

/-- The maps a claim about mnemonics may range over (D3): no two instructions share a byte, 0xFF has
no entry, and the three bytes the document itself gives are kept (R42). The widths are no part of
the map: they are the static table of R43. -/
def OpcodeMap.Valid (m : OpcodeMap) : Prop :=
  (∀ j k, m j = m k → j = k) ∧ (∀ k, m k ≠ 0xFF#8) ∧
    m .ldi = 0x82#8 ∧ m .prn = 0x47#8 ∧ m .hlt = 0x01#8

/-- The parameter `TRACE_ENABLED` (R95; D19, U8): whether the trace port is present. Left open. -/
opaque Config.traceEnabled : Bool

/-- The open part of the trace text (R95; D19): what stands before a record, in each of the eleven gaps
between its twelve fields, and after it. The gaps need not be alike, so a layout may set pc, the bytes
and the registers apart. DESIGN CHOICE (unsafe for a layout outside it): one layout serves every
record (log entry 7). -/
structure TraceFormat where
  lead : List Char
  seps : Vector (List Char) 11
  close : List Char
  deriving DecidableEq, Repr, Inhabited

/-- The parameter `TRACE_FORMAT` (R95; D19, U8). Left open. -/
opaque Config.traceFormat : TraceFormat

/-- A free natural number behind `EXIT_STATUS_FAULT`. -/
opaque Config.exitStatusFaultPred : Nat

/-- The parameter `EXIT_STATUS_FAULT` (R97; D17, U7): any non-zero value. -/
def Config.exitStatusFault : Nat := Config.exitStatusFaultPred + 1

end Sys2Proof
end

