-- ==== Sys2Proof/WellFormed.lean ====
section
/-! DEFINITION. Which instructions name registers that exist: spec/30_encoding.md R40, R51. -/

namespace Sys2Proof

/-- A register operand byte names a register when it is 0 to 7 (R40). -/
def regByteOk (b : Byte) : Bool := decide (b.toNat < 8)

/-- An instruction is well formed when every register operand byte names a register: A in formats R
and RI, A and B in format RR (R39, R40). An immediate may be any byte, so nothing else is checked.
An ill-formed instruction still decodes; running it raises OutOfBounds (R11). -/
def Instr.wellFormed (i : Instr) : Bool := i.registerBytes.all regByteOk

end Sys2Proof
end

