-- ==== Sys2Proof/Decode.lean ====
section
/-! DEFINITION. Decoding and encoding: spec/30_encoding.md R37 to R50. -/

namespace Sys2Proof

/-- The default `OPCODE_MAP`: the table of R42, in the order of spec/opcode_table.json. LDI, PRN and
HLT are the document's bytes. UNVERIFIED (unsafe for a claim about a particular byte): the other
seventeen, which the spec takes from general knowledge of the LS-8 (D3, G1; log entry 1). -/
def Config.opcodeMap : OpcodeMap
  | .ldi  => 0x82#8
  | .prn  => 0x47#8
  | .hlt  => 0x01#8
  | .mul  => 0xA2#8
  | .add  => 0xA0#8
  | .push => 0x45#8
  | .pop  => 0x46#8
  | .call => 0x50#8
  | .ret  => 0x11#8
  | .cmp  => 0xA7#8
  | .jmp  => 0x54#8
  | .jeq  => 0x55#8
  | .jne  => 0x56#8
  | .and  => 0xA8#8
  | .or   => 0xAA#8
  | .xor  => 0xAB#8
  | .shl  => 0xAC#8
  | .shr  => 0xAD#8
  | .mod  => 0xA4#8
  | .not  => 0x69#8

/-- The number of bytes of a format (R39, R43). -/
def Format.width : Format → Nat
  | .N => 1
  | .R => 2
  | .RR => 3
  | .RI => 3

/-- The format of each instruction (R39). -/
def Mnemonic.format : Mnemonic → Format
  | .hlt | .ret => .N
  | .prn | .push | .pop | .call | .jmp | .jeq | .jne | .not => .R
  | .mul | .add | .cmp | .and | .or | .xor | .shl | .shr | .mod => .RR
  | .ldi => .RI

/-- The static width table: opcode to instruction width (R43). -/
def Mnemonic.width (k : Mnemonic) : Nat := k.format.width

/-- The number of bytes an instruction occupies (R43). -/
def Instr.width (i : Instr) : Nat := i.mnemonic.width

/-- Why bytes are no instruction. -/
inductive Reject where
  /-- The opcode byte is not in the dispatch table (R44). -/
  | invalidInstruction (op : Byte)
  /-- Fewer bytes than the opcode's width (only in the stream decoder; the engine always fetches
  three, R48). -/
  | truncated
  deriving DecidableEq, Repr

/-- Dispatch: the entry of an opcode byte, matched whole (R42, R49). -/
def OpcodeMap.lookup (m : OpcodeMap) (op : Byte) : Option Mnemonic :=
  Mnemonic.all.find? fun k => m k == op

/-- The instruction of a mnemonic with the two candidate operand bytes. A byte the format does not
own is ignored (R39, R41). -/
def Mnemonic.instr (k : Mnemonic) (opA opB : Byte) : Instr :=
  match k with
  | .ldi  => .ldi opA opB
  | .prn  => .prn opA
  | .hlt  => .hlt
  | .mul  => .mul opA opB
  | .add  => .add opA opB
  | .push => .push opA
  | .pop  => .pop opA
  | .call => .call opA
  | .ret  => .ret
  | .cmp  => .cmp opA opB
  | .jmp  => .jmp opA
  | .jeq  => .jeq opA
  | .jne  => .jne opA
  | .and  => .and opA opB
  | .or   => .or opA opB
  | .xor  => .xor opA opB
  | .shl  => .shl opA opB
  | .shr  => .shr opA opB
  | .mod  => .mod opA opB
  | .not  => .not opA

/-- The engine's decoder under an opcode map: the opcode byte and the two candidate operand bytes
give an instruction, or are rejected by name (R48, R49, R44). -/
def decodeWith (m : OpcodeMap) (op opA opB : Byte) : Except Reject Instr :=
  match m.lookup op with
  | some k => .ok (k.instr opA opB)
  | none => .error (.invalidInstruction op)

/-- The engine's decoder under the default map. -/
def decode (op opA opB : Byte) : Except Reject Instr := decodeWith Config.opcodeMap op opA opB

/-- The stream decoder under an opcode map: the first instruction of a list of bytes and the bytes
after it. The opcode byte alone gives the length (R43, R46). -/
def decodeBytesWith (m : OpcodeMap) : List Byte → Except Reject (Instr × List Byte)
  | [] => .error .truncated
  | op :: rest =>
    match m.lookup op with
    | none => .error (.invalidInstruction op)
    | some k =>
      match k.format, rest with
      | .N, rest => .ok (k.instr 0 0, rest)
      | .R, opA :: rest => .ok (k.instr opA 0, rest)
      | .RR, opA :: opB :: rest => .ok (k.instr opA opB, rest)
      | .RI, opA :: opB :: rest => .ok (k.instr opA opB, rest)
      | _, _ => .error .truncated

/-- The stream decoder under the default map. -/
def decodeBytes (bs : List Byte) : Except Reject (Instr × List Byte) :=
  decodeBytesWith Config.opcodeMap bs

/-- The operand bytes of an instruction, in increasing address order (R28, R39). -/
def Instr.operandBytes : Instr → List Byte
  | .ldi a imm => [a, imm]
  | .hlt | .ret => []
  | .prn a | .push a | .pop a | .call a | .jmp a | .jeq a | .jne a | .not a => [a]
  | .mul a b | .add a b | .cmp a b | .and a b | .or a b | .xor a b
  | .shl a b | .shr a b | .mod a b => [a, b]

/-- The encoder under an opcode map: the opcode byte, then the operand bytes (R37, R39). -/
def encodeWith (m : OpcodeMap) (i : Instr) : List Byte := m i.mnemonic :: i.operandBytes

/-- The encoder under the default map. -/
def encode (i : Instr) : List Byte := encodeWith Config.opcodeMap i

/-- Byte `k` of an instruction given as one number, bit 0 the least significant bit of the first byte,
with every bit at or above `nbits` zero (the numbering of spec/opcode_table.json). -/
def tableByte (nbits w k : Nat) : Byte := BitVec.ofNat 8 (w % 2 ^ nbits / 2 ^ (8 * k))

/-- The instruction the decoder reads from an instruction's bits `w`, numbered as
spec/opcode_table.json numbers them; none where the decoder refuses. -/
def decodeTableWord (nbits w : Nat) : Option Instr :=
  match decode (tableByte nbits w 0) (tableByte nbits w 1) (tableByte nbits w 2) with
  | .ok i => some i
  | .error _ => none

end Sys2Proof
end

