-- ==== Sys2Proof/Machine/Fetch.lean ====
section
/-! DEFINITION. Fetching an instruction's bytes: spec/30_encoding.md R47, R48; spec/60_exceptions.md R95. -/

namespace Sys2Proof.Machine

/-- Fetch: the opcode byte and the two bytes after it, unconditionally and in order; the first
address above 255 raises OutOfBounds (R48, D4). -/
def fetch (s : State) : Raises (Byte × Byte × Byte) := do
  let op ← s.memRead s.pc
  let opA ← s.memRead (s.pc + 1)
  let opB ← s.memRead (s.pc + 2)
  return (op, opA, opB)

/-- Latches the three fetched bytes (R21) and offers the trace port its record, before dispatch and
with the registers as they are before the instruction (R95). Whether the port is present is
`Config.traceEnabled`, which `State.tracePort` reads (log entry 7). -/
def State.latch (s : State) (op opA opB : Byte) : State :=
  { s with
    op := op, opA := opA, opB := opB
    trace := s.trace ++ [{ pc := s.pc, op := op, opA := opA, opB := opB, x := s.x }] }

/-- Where fetch succeeds: the three addresses lie in memory (R48). -/
def State.fetchable (s : State) : Bool := decide (s.pc ≤ 253)

/-- The three bytes written where the next fetch reads them. What else the fetch needs is set too: the
engine RUNNING with no fault record, and a pc a fetch succeeds at, 0 where it does not. -/
def State.placeInstruction (s : State) (b0 b1 b2 : Byte) : State :=
  let p := if s.fetchable then s.pc else 0
  { s with
    pc := p, state := .running, fault := none
    mem := ((s.mem.write p b0).write (p + 1) b1).write (p + 2) b2 }

end Sys2Proof.Machine
end

