-- ==== Sys2Proof/Machine/Cycle.lean ====
section
/-! DEFINITION. The fetch-decode-execute loop body: spec/30_encoding.md R47 to R50. -/

namespace Sys2Proof.Machine

/-- Dispatch and execute (R47 steps 3 and 4), the three bytes latched in `s`: an opcode byte outside
the map raises InvalidInstruction (R49), any other runs its handler (R50). -/
def dispatchWith (m : OpcodeMap) (s : State) : Host.Outcome State Fault Refusal :=
  match decodeWith m s.op s.opA s.opB with
  | .ok i => exec i s
  | .error _ => deliver s (.error (.opcode s.op))

/-- The loop body (R47), run while the engine is RUNNING. A fetch that faults has no opcode to record
(R17). -/
def cycleWith (m : OpcodeMap) (s : State) : Host.Outcome State Fault Refusal :=
  match fetch s with
  | .error d => .next (s.takeFault none d)
  | .ok (op, opA, opB) => dispatchWith m (s.latch op opA opB)

/-- One step under an opcode map (R47). In HALTED and FAULTED the engine takes no step (R16): `step`
stops under a name. DESIGN CHOICE (safe; log entry 4). -/
def stepWith (m : OpcodeMap) (s : State) : Host.Outcome State Fault Refusal :=
  match s.state with
  | .running => cycleWith m s
  | .halted => .fault .engineHalted
  | .faulted => .fault .engineFaulted

end Sys2Proof.Machine
end

