-- ==== Sys2Proof/Machine/Step.lean ====
section
/-! DEFINITION. The step under the default opcode map: spec/30_encoding.md R42, R47. -/

namespace Sys2Proof.Machine

/-- One step under the default opcode map (R42, R47, D3). -/
def step (s : State) : Host.Outcome State Fault Refusal := stepWith Config.opcodeMap s

/-- `s` with one instruction, its bits numbered as spec/opcode_table.json numbers them, stored where
`step` fetches its next instruction (log entry 9). -/
def State.withFetchWord (s : State) (nbits w : Nat) : State :=
  s.placeInstruction (tableByte nbits w 0) (tableByte nbits w 1) (tableByte nbits w 2)

end Sys2Proof.Machine
end

