-- ==== Sys2Proof/Machine/HostPort.lean ====
section
/-! DEFINITION. What the host makes of the core's ports: spec/70_reset_and_hazards.md R103, R104;
spec/60_exceptions.md R95, R97. -/

namespace Sys2Proof.Machine

/-- A decimal digit. -/
def digit (n : Nat) : Char := Char.ofNat (48 + n % 10)

/-- A byte's unsigned decimal digits, no sign and no leading zeros (R103, D21). -/
def decimal (v : Byte) : List Char :=
  let n := v.toNat
  (if 100 ≤ n then [digit (n / 100)] else []) ++ (if 10 ≤ n then [digit (n / 10)] else []) ++
    [digit n]

/-- The text on the standard output stream: each byte in program order, in decimal, with a newline
(R18, R103). -/
def stdout (out : List Byte) : List Char := out.flatMap fun v => decimal v ++ ['\n']

/-- An uppercase hexadecimal digit. -/
def hexDigit (n : Nat) : Char :=
  if n % 16 < 10 then Char.ofNat (48 + n % 16) else Char.ofNat (55 + n % 16)

/-- Two uppercase hexadecimal digits (R95). -/
def hex2 (n : Nat) : List Char := [hexDigit (n / 16), hexDigit n]

/-- The fields of a trace record: pc, opcode, the two bytes after it and the eight registers, as R95
lists them. DESIGN CHOICE (unsafe for another order): the registers stand in the order R0 to R7, which
R95 and D19 do not give (log entry 7). -/
def TraceRecord.fields (r : TraceRecord) : List (List Char) :=
  [hex2 r.pc, hex2 r.op.toNat, hex2 r.opA.toNat, hex2 r.opB.toNat] ++
    r.x.toList.map fun v => hex2 v.toNat

/-- Fields written one after another, the next separator in each gap between two of them. -/
def joinFields : List (List Char) → List (List Char) → List Char
  | [], _ => []
  | [f], _ => f
  | f :: fs, seps => f ++ seps.headD [] ++ joinFields fs seps.tail

/-- The text of a trace record under a trace format (R95, D19). DESIGN CHOICE (unsafe for a layout
outside it): the record is its lead, its twelve fields in the order of `fields` with a separator of its
own in each gap, and its close, the same for every record (log entry 7). -/
def TraceRecord.render (f : TraceFormat) (r : TraceRecord) : List Char :=
  f.lead ++ joinFields r.fields f.seps.toList ++ f.close

/-- What the trace port emits: every record where the port is present, nothing where it is not
(R95, U8). -/
def State.tracePort (s : State) : List TraceRecord :=
  if Config.traceEnabled then s.trace else []

/-- The trace text of a run (R95). -/
def State.traceText (s : State) : List Char :=
  s.tracePort.flatMap (TraceRecord.render Config.traceFormat)

/-- The diagnostic of a faulted run, any text (R97, U6). Left open. -/
opaque Config.diagnosticText : FaultRecord → List Char

/-- The diagnostic of a failed load, any text (R97, R101, U6). Left open. -/
opaque Config.loadDiagnosticText : FaultDetail → List Char

/-- The exit status the host reports: 0 after HALTED, `EXIT_STATUS_FAULT` after FAULTED, none while
the engine runs (R97, R103). -/
def exitStatus (s : State) : Option Nat :=
  match s.state with
  | .running => none
  | .halted => some 0
  | .faulted => some Config.exitStatusFault

/-- The diagnostic the host prints: for a faulted run only (R97, R103). -/
def State.diagnostic (s : State) : Option (List Char) := s.fault.map Config.diagnosticText

/-- The exit status and the diagnostic of a load that fails (R101, R97); none where it succeeds. -/
def loadExit {α : Type} : Raises α → Option (Nat × List Char)
  | .ok _ => none
  | .error d => some (Config.exitStatusFault, Config.loadDiagnosticText d)

/-- The observation of a finished run (R104). -/
structure Observation where
  out : List Byte
  mem : Memory
  x : RegFile
  pc : Nat
  fl : FlagReg
  deriving DecidableEq, Repr

/-- A run is observed in a final state, which is HALTED alone (R104). -/
def State.observe (s : State) : Option Observation :=
  if s.state = .halted then
    some { out := s.out, mem := s.mem, x := s.x, pc := s.pc, fl := s.fl }
  else none

end Sys2Proof.Machine
end

