-- ==== Sys2Proof/Machine/Loader.lean ====
section
/-! DEFINITION. The host's load and start: spec/70_reset_and_hazards.md R99 to R102. -/

namespace Sys2Proof.Machine

/-- The text without surrounding whitespace. DESIGN CHOICE (unsafe): whitespace is the space, tab,
carriage return and newline of `Char.isWhitespace` (log entry 11). -/
def trim (cs : List Char) : List Char :=
  ((cs.dropWhile Char.isWhitespace).reverse.dropWhile Char.isWhitespace).reverse

/-- A line's text, comment and surrounding whitespace removed (R100). -/
def effectiveText (line : List Char) : List Char := trim (line.takeWhile (· != '#'))

/-- The value of a base-2 literal, most significant digit first (R38, R100). -/
def binaryValue (cs : List Char) : Nat :=
  cs.foldl (fun n c => 2 * n + (if c = '1' then 1 else 0)) 0

/-- One line: nothing for an ineffective line, a byte, or InvalidLiteral with the offending line
(R100, D18). -/
def loadLine (line : List Char) : Raises (Option Byte) :=
  let text := effectiveText line
  if text = [] then .ok none
  else if text.all (fun c => c == '0' || c == '1') then
    if binaryValue text > 255 then .error (.line line) else .ok (some (mod256 (binaryValue text)))
  else .error (.line line)

/-- The lines in order from the address `next` on; a literal for an address above 255 is OutOfBounds
(R99, R100, D18). -/
def loadLines : List (List Char) → Nat → Memory → Raises Memory
  | [], _, mem => .ok mem
  | line :: lines, next, mem =>
    match loadLine line with
    | .error d => .error d
    | .ok none => loadLines lines next mem
    | .ok (some v) =>
      if next > 255 then .error (.memoryIndex next)
      else loadLines lines (next + 1) (mem.write next v)

/-- A text cut at its newlines. -/
def splitLines : List Char → List (List Char)
  | [] => [[]]
  | c :: cs =>
    if c = '\n' then [] :: splitLines cs
    else match splitLines cs with
      | [] => [[c]]
      | l :: ls => (c :: l) :: ls

/-- The loader: the program file's text, or none where the source cannot be opened, gives the loaded
memory or the load-time fault (R99, R100, R101). -/
def load : Option (List Char) → Raises Memory
  | none => .error .noSource
  | some text => loadLines (splitLines text) 0 State.reset.mem

/-- A byte as the document writes it in a program file: eight base-2 digits, most significant bit
first (R38). -/
def byteDigits (v : Byte) : List Char :=
  (List.range 8).map fun k => if v.getLsbD (7 - k) then '1' else '0'

/-- The file image of a program: its bytes in order, one per line (R100). -/
def fileImage (bs : List Byte) : List Char := bs.flatMap fun v => byteDigits v ++ ['\n']

/-- The start (R102): the reset state with the loaded memory. A load that fails starts no run. -/
def boot (source : Option (List Char)) : Raises State :=
  match load source with
  | .error d => .error d
  | .ok mem => .ok { State.reset with mem := mem }

end Sys2Proof.Machine
end

