-- ==== Sys2Proof/Machine/Asm.lean ====
section
/-! DEFINITION. The assembly syntax: spec/30_encoding.md R51. Notation, not hardware (D20): nothing the
engine does reads it. -/

namespace Sys2Proof.Machine

/-- The mnemonic in upper case (R51). -/
def mnemonicText : Mnemonic → List Char
  | .ldi => ['L', 'D', 'I']
  | .prn => ['P', 'R', 'N']
  | .hlt => ['H', 'L', 'T']
  | .mul => ['M', 'U', 'L']
  | .add => ['A', 'D', 'D']
  | .push => ['P', 'U', 'S', 'H']
  | .pop => ['P', 'O', 'P']
  | .call => ['C', 'A', 'L', 'L']
  | .ret => ['R', 'E', 'T']
  | .cmp => ['C', 'M', 'P']
  | .jmp => ['J', 'M', 'P']
  | .jeq => ['J', 'E', 'Q']
  | .jne => ['J', 'N', 'E']
  | .and => ['A', 'N', 'D']
  | .or => ['O', 'R']
  | .xor => ['X', 'O', 'R']
  | .shl => ['S', 'H', 'L']
  | .shr => ['S', 'H', 'R']
  | .mod => ['M', 'O', 'D']
  | .not => ['N', 'O', 'T']

/-- `Rn` (R51). -/
def regText (a : Byte) : List Char := 'R' :: decimal a

/-- An instruction in assembly syntax, the immediate in decimal (R51). -/
def asmText (i : Instr) : List Char :=
  let name := mnemonicText i.mnemonic
  match i.mnemonic.format, i.operandBytes with
  | .R, [a] => name ++ ' ' :: regText a
  | .RR, [a, b] => name ++ ' ' :: regText a ++ ',' :: regText b
  | .RI, [a, imm] => name ++ ' ' :: regText a ++ ',' :: decimal imm
  | _, _ => name

/-- The value of a digit, upper or lower case. -/
def digitValue (c : Char) : Option Nat :=
  if '0' ≤ c ∧ c ≤ '9' then some (c.toNat - 48)
  else if 'A' ≤ c ∧ c ≤ 'F' then some (c.toNat - 55)
  else if 'a' ≤ c ∧ c ≤ 'f' then some (c.toNat - 87)
  else none

/-- The digits of a number in a base, continued from `acc`. -/
def digitsValue (base : Nat) : List Char → Nat → Option Nat
  | [], acc => some acc
  | c :: cs, acc =>
    match digitValue c with
    | some d => if d < base then digitsValue base cs (base * acc + d) else none
    | none => none

/-- The labels of a program and their byte addresses (R51). -/
abbrev Labels := List (List Char × Byte)

/-- A non-empty number of at most 255. -/
def byteLiteral (base : Nat) (cs : List Char) : Option Byte :=
  if cs = [] then none
  else match digitsValue base cs 0 with
    | some n => if n ≤ 255 then some (mod256 n) else none
    | none => none

/-- An immediate: decimal, or with a `0x` or `0b` prefix, or else a label (R51). -/
def parseImm (labels : Labels) (cs : List Char) : Option Byte :=
  match cs with
  | '0' :: 'x' :: rest => byteLiteral 16 rest
  | '0' :: 'b' :: rest => byteLiteral 2 rest
  | _ =>
    match byteLiteral 10 cs with
    | some v => some v
    | none => labels.lookup cs

/-- A register operand, `R0` to `R7` (R51). -/
def parseReg (cs : List Char) : Option Byte :=
  match cs with
  | ['R', c] =>
    match digitValue c with
    | some d => if d < 8 then some (mod256 d) else none
    | none => none
  | _ => none

/-- The instruction of one line, which holds no label definition and no comment (R51). DESIGN CHOICE
(safe): spaces are allowed around each part (log entry 12). -/
def parseAsm (labels : Labels) (line : List Char) : Option Instr :=
  let text := trim line
  let name := text.takeWhile fun c => !c.isWhitespace
  let operands := trim (text.drop name.length)
  let first := trim (operands.takeWhile (· != ','))
  let second := (operands.dropWhile (· != ',')).drop 1
  match Mnemonic.all.find? fun k => mnemonicText k == name with
  | none => none
  | some k =>
    match k.format with
    | .N => if operands = [] then some (k.instr 0 0) else none
    | .R => do
      let a ← parseReg operands
      return k.instr a 0
    | .RR => do
      let a ← parseReg first
      let b ← parseReg (trim second)
      return k.instr a b
    | .RI => do
      let a ← parseReg first
      let imm ← parseImm labels (trim second)
      return k.instr a imm

/-- A line cut at its label definition `name:`, if it has one (R51). -/
def cutLabel (line : List Char) : Option (List Char) × List Char :=
  if line.contains ':' then
    (some (trim (line.takeWhile (· != ':'))), (line.dropWhile (· != ':')).drop 1)
  else (none, line)

/-- The number of bytes a line assembles to: the width of the mnemonic it begins with. -/
def lineWidth (line : List Char) : Nat :=
  let name := (trim line).takeWhile fun c => !c.isWhitespace
  match Mnemonic.all.find? fun k => mnemonicText k == name with
  | some k => k.width
  | none => 0

/-- First pass: each label stands for the byte address of its place (R51). An address above 255 is no
byte, and such a label is left undefined. -/
def collectLabels : List (List Char) → Nat → Labels
  | [], _ => []
  | line :: lines, pos =>
    let rest := collectLabels lines (pos + lineWidth (cutLabel line).2)
    match (cutLabel line).1 with
    | some name => if pos ≤ 255 then (name, mod256 pos) :: rest else rest
    | none => rest

/-- Second pass: the bytes of the lines; an empty line gives none. -/
def assembleLines (labels : Labels) : List (List Char) → Option (List Byte)
  | [] => some []
  | line :: lines => do
    let body := trim (cutLabel line).2
    let rest ← assembleLines labels lines
    if body = [] then return rest
    else do
      let i ← parseAsm labels body
      return encode i ++ rest

/-- The assembler: lines of the syntax of R51 to bytes, loaded from address 0. -/
def assemble (lines : List (List Char)) : Option (List Byte) :=
  assembleLines (collectLabels lines 0) lines

end Sys2Proof.Machine
end

