-- ==== Sys2Proof/Safety.lean ====
section
/-! DEFINITION. What instructions write, reachable states, the invariant, and the end of a run: spec/10_state.md,
spec/70_reset_and_hazards.md R104. -/

namespace Sys2Proof.Machine

/-- A fault record a step can leave (R17, R80): its kind is a run-time kind other than
UnsupportedOperation (R84, R85); the opcode is none exactly when the fetch faulted, that is, when the
detail is a memory index (R26); and the detail says what R80 says it says. -/
def FaultRecord.sound (r : FaultRecord) : Bool :=
  match r.detail, r.opcode with
  | .opcode b, some op => op == b
  | .memoryIndex n, none => decide (255 < n) && decide (r.pc ≤ n) && decide (n ≤ r.pc + 2)
  | .registerIndex i, some _ => decide (7 < i.toNat)
  | .stackValue v, some _ => v == -1 || v == 256
  | .divisorRegister _, some _ => true
  | _, _ => false

/-- The fault record is there in FAULTED and nowhere else (R16, R17), is sound, and its pc is the pc
the fault left in place (R88). -/
def State.faultConsistent (s : State) : Bool :=
  match s.state, s.fault with
  | .running, none => true
  | .halted, none => true
  | .faulted, some r => r.sound && decide (r.pc = s.pc)
  | _, _ => false

/-- What holds of every state a run can reach: memory in canonical form (R24), pc in 0..256 (R13), at
most one flag set (R14), the fault record consistent with the engine state (R17), and every traced
fetch at pc 253 or below (R95). -/
abbrev State.Inv (s : State) : Prop :=
  s.mem.wf = true ∧ s.pc ≤ 256 ∧ s.fl.exclusive = true ∧ s.faultConsistent = true ∧
    s.trace.all (fun r => decide (r.pc ≤ 253)) = true

/-- The registers an instruction writes when it takes effect: the table of R12. -/
def writesReg (i : Instr) (r : RegIndex) : Bool :=
  match i with
  | .ldi a _ | .not a => decide (a.toNat = r.val)
  | .add a _ | .mul a _ | .and a _ | .or a _ | .xor a _ | .shl a _ | .shr a _ | .mod a _ =>
    decide (a.toNat = r.val)
  | .push _ | .call _ | .ret => decide (r.val = 7)
  | .pop a => decide (a.toNat = r.val) || decide (r.val = 7)
  | .prn _ | .hlt | .cmp _ _ | .jmp _ | .jeq _ | .jne _ => false

/-- `s` runs to `t` in `n` steps (R47); it is what `Host.Core.run` answers (`runsTo_iff_run`). -/
def RunsTo : Nat → State → State → Prop
  | 0, s, t => s = t
  | n + 1, s, t => ∃ u, step s = .next u ∧ RunsTo n u t

/-- The run from `s` ends in the final state `t` (R104). -/
def Finishes (s t : State) : Prop := ∃ n, RunsTo n s t ∧ t.state = .halted

/-- The run from `s` ends faulted in `t`, which is not final (R104). -/
def Fails (s t : State) : Prop := ∃ n, RunsTo n s t ∧ t.state = .faulted

/-- The run from `s` never ends: the engine stays RUNNING (R104). -/
def Hangs (s : State) : Prop := ∀ n, ∃ t, RunsTo n s t ∧ t.state = .running

/-- A state some run of some program reaches (R102). -/
def Reachable (s : State) : Prop := ∃ source t n, boot source = .ok t ∧ RunsTo n t s

/-- A safe run: it does not end faulted (R104). A hang is a legal run and is safe. -/
def SafeRun (s : State) : Prop := ∀ t, ¬ Fails s t

end Sys2Proof.Machine
end

