-- ==== Sys2Proof/Certificates/Slice0/Obligations.lean ====
section
/-! DEFINITION. The statements about the model, for the provers. Each says in its docstring which rules
of spec/ it rests on. `m` ranges over opcode maps (the parameter OPCODE_MAP): a statement for every
`m` rests on no particular opcode byte. -/

open Sys2Proof Sys2Proof.Machine

/-! Reset, the invariant, and the run. -/

/-- R22, R98: what construction leaves. FL = 0 is the spec's decision D6 (log entry 3), and `state` is
RUNNING because the run is started in the reset state (log entry 6). -/
def Obligations.ResetIsZeroAndRunning : Prop :=
  (∀ a, a < 256 → State.reset.memRead a = .ok 0#8) ∧
  (∀ r : RegIndex, State.reset.x[r] = 0#8) ∧
  State.reset.pc = 0 ∧
  State.reset.fl = { e := false, g := false, l := false } ∧
  State.reset.state = .running ∧ State.reset.fault = none ∧ State.reset.out = []

/-- The reset state meets the invariant. -/
def Obligations.ResetMeetsInvariant : Prop := State.reset.Inv

/-- R99, R102: a run starts at the reset state with the memory the load gives, and that state meets the
invariant whatever the program; a load that fails starts no run (R85, R101). -/
def Obligations.BootedStateMeetsInvariant : Prop :=
  ∀ source : Option (List Char),
    (∀ s, boot source = .ok s →
      s.Inv ∧ load source = .ok s.mem ∧ s = { State.reset with mem := s.mem }) ∧
    (∀ mem, load source = .ok mem → boot source = .ok { State.reset with mem := mem }) ∧
    ∀ d, load source = .error d → boot source = .error d

/-- R13, R14, R17, R24, R95: every step, under every opcode map, keeps the invariant: memory canonical
and within 0..255, pc in 0..256, at most one flag set, a sound fault record in FAULTED and nowhere
else, and no traced fetch beyond 253. -/
def Obligations.StepKeepsInvariant : Prop :=
  ∀ (m : OpcodeMap) (s t : State), s.Inv → stepWith m s = .next t → t.Inv

/-- Every state that some run of some program reaches meets the invariant. -/
def Obligations.ReachableStatesMeetInvariant : Prop := ∀ s, Reachable s → s.Inv

/-- R16, R47: the engine has a step exactly while it is RUNNING. The names it stops under in HALTED and
FAULTED are the model's own (log entry 4). -/
def Obligations.EngineStepsExactlyWhileRunning : Prop :=
  ∀ (m : OpcodeMap) (s : State),
    ((∃ t, stepWith m s = .next t) ↔ s.state = .running) ∧
    (s.state = .halted → stepWith m s = .fault .engineHalted) ∧
    (s.state = .faulted → stepWith m s = .fault .engineFaulted)

/-- R104: a run ends in HALTED, or ends in FAULTED, or never ends; the three exclude each other, and
where it ends its last state is one. -/
def Obligations.RunEndsInExactlyOneOfThreeWays : Prop :=
  ∀ s : State, s.state = .running →
    ((∃ t, Finishes s t) ∨ (∃ t, Fails s t) ∨ Hangs s) ∧
    (∀ t u, ¬ (Finishes s t ∧ Fails s u)) ∧
    (∀ t, ¬ (Finishes s t ∧ Hangs s)) ∧ (∀ t, ¬ (Fails s t ∧ Hangs s)) ∧
    (∀ t u, Finishes s t → Finishes s u → t = u) ∧ (∀ t u, Fails s t → Fails s u → t = u)

/-- R16, R55 (the spec's decision D15, conflict C1): HALTED is reached by HLT and by nothing else. -/
def Obligations.OnlyHltHalts : Prop :=
  ∀ (m : OpcodeMap) (s t : State), m.Valid → stepWith m s = .next t →
    (t.state = .halted ↔ s.pc ≤ 253 ∧ Memory.read s.mem s.pc = m .hlt)

/-! Fetch, dispatch and faults. -/

/-- R47, R50: where the three bytes at pc decode, a step is the handler run with the bytes latched
(R21) and the trace record offered. That State.trace holds the record whatever TRACE_ENABLED is the
model's choice (log entry 7): R95 has it emitted only where the port is present. -/
def Obligations.StepRunsDecodedInstruction : Prop :=
  ∀ (s : State) (i : Instr) (op opA opB : Byte), s.state = .running → s.pc ≤ 253 →
    op = Memory.read s.mem s.pc → opA = Memory.read s.mem (s.pc + 1) →
    opB = Memory.read s.mem (s.pc + 2) →
    (decode op opA opB = .ok i →
      step s = exec i { s with
        op := op, opA := opA, opB := opB
        trace := s.trace ++ [{ pc := s.pc, op := op, opA := opA, opB := opB, x := s.x }] }) ∧
    ∀ m, decodeWith m op opA opB = .ok i →
      stepWith m s = exec i { s with
        op := op, opA := opA, opB := opB
        trace := s.trace ++ [{ pc := s.pc, op := op, opA := opA, opB := opB, x := s.x }] }

/-- R48 (the spec's decision D4, conflict C2): beyond pc 253 a fetch faults at the first address above
255, whatever the bytes, and records no opcode (R17). -/
def Obligations.FetchFaultsBeyond253 : Prop :=
  ∀ (m : OpcodeMap) (s : State), s.state = .running → 253 < s.pc →
    stepWith m s = .next { s with
      state := .faulted
      fault := some
        { pc := s.pc, opcode := none, detail := .memoryIndex (if s.pc < 256 then 256 else s.pc) } }

/-- R81: an opcode byte outside the dispatch table raises InvalidInstruction; the record holds the byte
and the pc it was fetched from; no further instruction runs. That the engine is then FAULTED and not
HALTED is R87's decision D15 (conflict C1; log entry 2). -/
def Obligations.IllegalOpcodeEndsTheRun : Prop :=
  ∀ (m : OpcodeMap) (s : State), s.state = .running → s.pc ≤ 253 →
    (∀ k, m k ≠ Memory.read s.mem s.pc) →
    ∃ t r, stepWith m s = .next t ∧ t.state = .faulted ∧ t.fault = some r ∧
      r.kind = .invalidInstruction ∧ r.detail = .opcode (Memory.read s.mem s.pc) ∧
      r.opcode = some (Memory.read s.mem s.pc) ∧ r.pc = s.pc ∧
      ∀ m' u, stepWith m' t ≠ .next u

/-- R44, R42: 236 of the 256 byte values are illegal, 0x00 and 0xFF and 0xA1 among them. The default
map is the spec's choice D3 (log entry 1). -/
def Obligations.DefaultMapLeaves236BytesIllegal : Prop :=
  ((List.range 256).filter fun n =>
    (Config.opcodeMap.lookup (BitVec.ofNat 8 n)).isNone).length = 236 ∧
  Config.opcodeMap.lookup 0x00#8 = none ∧ Config.opcodeMap.lookup 0xFF#8 = none ∧
  Config.opcodeMap.lookup 0xA1#8 = none

/-- R87, R88 (the spec's decisions D10, D11, D15; log entry 2): a faulting step changes the engine state,
the fault record, and, where its fetch succeeds, the latches (R21) and the trace (R95), and nothing
else; the record holds the pc and the fetched opcode, or none when the fetch faulted. (What its detail
is stands in `FaultsComeInPriorityOrder`.) -/
def Obligations.FaultsArePrecise : Prop :=
  ∀ (m : OpcodeMap) (s t : State), stepWith m s = .next t → t.state = .faulted →
    t = { s with
      state := .faulted, fault := t.fault, op := t.op, opA := t.opA, opB := t.opB
      trace := t.trace } ∧
    (253 < s.pc → t.op = s.op ∧ t.opA = s.opA ∧ t.opB = s.opB ∧ t.trace = s.trace) ∧
    ∃ r, t.fault = some r ∧ r.pc = s.pc ∧
      r.opcode = if s.pc ≤ 253 then some (Memory.read s.mem s.pc) else none

/-- R86 (the spec's decisions D12, D13, D14): one step's fault is the first of: fetch, dispatch,
register A, register B, the instruction's own. -/
def Obligations.FaultsComeInPriorityOrder : Prop :=
  ∀ (m : OpcodeMap) (s t : State) (r : FaultRecord), stepWith m s = .next t →
    t.state = .faulted → t.fault = some r →
    (253 < s.pc → ∃ n, r.detail = .memoryIndex n) ∧
    (s.pc ≤ 253 →
      ((∀ k, m k ≠ Memory.read s.mem s.pc) → r.detail = .opcode (Memory.read s.mem s.pc)) ∧
      ∀ i, decodeWith m (Memory.read s.mem s.pc) (Memory.read s.mem (s.pc + 1))
          (Memory.read s.mem (s.pc + 2)) = .ok i →
        match i.registerBytes.find? (fun b => decide (7 < b.toNat)) with
        | some b => r.detail = .registerIndex b
        | none =>
          (∃ a b q, i = .mod a b ∧ r.detail = .divisorRegister q ∧ b.toNat = q.val) ∨
          (∃ a, (i = .push a ∨ i = .call a) ∧ r.detail = .stackValue (-1)) ∨
          (∃ a, (i = .pop a ∨ i = .ret) ∧ r.detail = .stackValue 256))

/-- R11: a register operand byte above 7 raises OutOfBounds with that byte, unmasked, and the
instruction has no effect; a byte of 0 to 7 is the register number. (Which of two such bytes is
reported is the spec's decision D12, in `FaultsComeInPriorityOrder`.) -/
def Obligations.RegisterIndexAboveSevenFaults : Prop :=
  (∀ (i : Instr) (s : State), (∃ b ∈ i.registerBytes, 7 < b.toNat) →
    ∃ b r, b ∈ i.registerBytes ∧ 7 < b.toNat ∧ r.kind = .outOfBounds ∧
      r.detail = .registerIndex b ∧
      exec i s = .next { s with state := .faulted, fault := some r }) ∧
  ∀ b : Byte,
    (b.toNat ≤ 7 → ∃ r, regOperand b = .ok r ∧ r.val = b.toNat) ∧
    (7 < b.toNat → regOperand b = .error (.registerIndex b))

/-- R84, R58: no step raises UnsupportedOperation; the ALU given an unknown operation raises it and
never does nothing, and that is fatal to the run. -/
def Obligations.UnsupportedOperationNeverRaised : Prop :=
  (∀ (m : OpcodeMap) (s t : State) (r : FaultRecord), stepWith m s = .next t →
    t.state = .faulted → t.fault = some r → r.kind ≠ .unsupportedOperation) ∧
  ∀ (name : String) (d src : RegIndex) (s : State),
    aluApply (.other name) d src s = .error (.operation name) ∧
    (FaultDetail.operation name).kind = .unsupportedOperation ∧
    ∃ t, deliver s (aluApply (.other name) d src s) = .next t ∧ t.state = .faulted ∧
      ∀ m u, stepWith m t ≠ .next u

/-! Encoding. -/

/-- R38, R39, R42: a word of every instruction, written out byte by byte in the order of the table,
decodes to what it stands for, and 0xFF to nothing. The opcode bytes but those of LDI, PRN and HLT are
the spec's choice D3 (log entry 1). -/
def Obligations.WordsDecodeAsTheTableSays : Prop :=
  decode 0b10000010 0b00000000 0b00001000 = .ok (.ldi 0 8) ∧
  decode 0b01000111 0b00000011 0b11101110 = .ok (.prn 3) ∧
  decode 0b00000001 0b11111111 0b11111111 = .ok .hlt ∧
  decode 0b10100010 0b00000101 0b00000110 = .ok (.mul 5 6) ∧
  decode 0b10100000 0b00000010 0b00000101 = .ok (.add 2 5) ∧
  decode 0b01000101 0b00000110 0b00000000 = .ok (.push 6) ∧
  decode 0b01000110 0b00000001 0b00000000 = .ok (.pop 1) ∧
  decode 0b01010000 0b00000001 0b00000000 = .ok (.call 1) ∧
  decode 0b00010001 0b00000000 0b00000000 = .ok .ret ∧
  decode 0b10100111 0b00000011 0b00000100 = .ok (.cmp 3 4) ∧
  decode 0b01010100 0b00000101 0b00000000 = .ok (.jmp 5) ∧
  decode 0b01010101 0b00000100 0b00000000 = .ok (.jeq 4) ∧
  decode 0b01010110 0b00000010 0b00000000 = .ok (.jne 2) ∧
  decode 0b10101000 0b00000001 0b00000010 = .ok (.and 1 2) ∧
  decode 0b10101010 0b00000010 0b00000011 = .ok (.or 2 3) ∧
  decode 0b10101011 0b00000011 0b00000100 = .ok (.xor 3 4) ∧
  decode 0b10101100 0b00000100 0b00000101 = .ok (.shl 4 5) ∧
  decode 0b10101101 0b00000101 0b00000110 = .ok (.shr 5 6) ∧
  decode 0b10100100 0b00000110 0b00000111 = .ok (.mod 6 7) ∧
  decode 0b01101001 0b00000111 0b00000000 = .ok (.not 7) ∧
  decode 0b11111111 0b10000010 0b00000000 = .error (.invalidInstruction 0b11111111)

/-- R37, R42, R43, R46: under every valid opcode map, decoding an encoded instruction, whatever
follows it, gives the instruction back and leaves what follows. -/
def Obligations.StreamDecodeInvertsEncode : Prop :=
  ∀ m : OpcodeMap, m.Valid → ∀ (i : Instr) (rest : List Byte),
    decodeBytesWith m (encodeWith m i ++ rest) = .ok (i, rest) ∧
    (encodeWith m i).length = i.width

/-- R41, R48 (U9): the engine's decoder reads an encoded instruction from the three fetched bytes
whatever the bytes its format does not own. -/
def Obligations.EngineDecodeIgnoresForeignBytes : Prop :=
  ∀ m : OpcodeMap, m.Valid → ∀ (i : Instr) (extra : List Byte) (op opA opB : Byte),
    encodeWith m i ++ extra = [op, opA, opB] → decodeWith m op opA opB = .ok i

/-- R37, R49: what the stream decoder reads is the encoding of what it answers, so no two words of an
instruction differ in a bit it drops. -/
def Obligations.EncodeInvertsStreamDecode : Prop :=
  ∀ (m : OpcodeMap) (bs rest : List Byte) (i : Instr),
    decodeBytesWith m bs = .ok (i, rest) → encodeWith m i ++ rest = bs

/-! Memory. -/

/-- R25: a byte written is read back, no other byte changes and nothing but memory does; a byte
nothing has written reads as 0. -/
def Obligations.MemoryReadsLatestWrite : Prop :=
  (∀ (s : State) (a : Nat) (v : Byte), s.mem.wf = true → a ≤ 255 →
    ∃ t, s.memWrite a v = .ok t ∧ t.mem.wf = true ∧ t.memRead a = .ok v ∧
      (∀ c, c ≠ a → t.memRead c = s.memRead c) ∧ t = { s with mem := t.mem }) ∧
  ∀ a, a ≤ 255 → State.reset.memRead a = .ok 0#8

/-- R26: an access above 255 is an error and not a wrap, and in a run only a fetch can raise it. -/
def Obligations.OutOfRangeMemoryAccessRaises : Prop :=
  (∀ (s : State) (a : Nat) (v : Byte), 255 < a →
    s.memRead a = .error (.memoryIndex a) ∧ s.memWrite a v = .error (.memoryIndex a)) ∧
  ∀ (m : OpcodeMap) (s t : State) (r : FaultRecord) (n : Nat), stepWith m s = .next t →
    t.state = .faulted → t.fault = some r → r.detail = .memoryIndex n → 253 < s.pc

/-- R34, R106: the byte a PUSH or a CALL stores is what the next fetch reads, wherever it lands. PUSH R7
stores the register as it stands after the decrement (the spec's decision D9; log entry 2). -/
def Obligations.StoreIsSeenByTheNextFetch : Prop :=
  ∀ (s t : State) (a : Byte) (r : RegIndex) (b0 b1 b2 : Byte), s.mem.wf = true →
    a.toNat = r.val → s.x[7] ≠ 0#8 → fetch t = .ok (b0, b1, b2) →
    (exec (.push a) s = .next t →
      [b0, b1, b2] = [0, 1, 2].map fun k =>
        if t.pc + k = (s.x[7]).toNat - 1 then t.x[r] else Memory.read s.mem (t.pc + k)) ∧
    (s.pc ≤ 253 → exec (.call a) s = .next t →
      [b0, b1, b2] = [0, 1, 2].map fun k =>
        if t.pc + k = (s.x[7]).toNat - 1 then BitVec.ofNat 8 (s.pc + 2)
        else Memory.read s.mem (t.pc + k))

/-! Load immediate, output, halt. -/

/-- R53: LDI, whole: its encoding, its effect, its fault. -/
def Obligations.LdiLoadsImmediate : Prop :=
  ∀ (s : State) (a imm : Byte),
    encode (.ldi a imm) = [0b10000010#8, a, imm] ∧
    (∀ d : RegIndex, a.toNat = d.val →
      exec (.ldi a imm) s = .next { s with x := s.x.set d imm, pc := s.pc + 3 }) ∧
    (7 < a.toNat → ∃ r, r.kind = .outOfBounds ∧ r.detail = .registerIndex a ∧
      exec (.ldi a imm) s = .next { s with state := .faulted, fault := some r })

/-- R54: PRN, whole: its encoding, the byte it appends, the decimal text the host writes, its fault.
That the text has no leading zeros is the spec's decision D21 (log entry 2). -/
def Obligations.PrnAppendsRegister : Prop :=
  ∀ (s : State) (a : Byte),
    encode (.prn a) = [0b01000111#8, a] ∧
    (∀ r : RegIndex, a.toNat = r.val →
      exec (.prn a) s = .next { s with out := s.out ++ [s.x[r]], pc := s.pc + 2 } ∧
      stdout (s.out ++ [s.x[r]]) =
        stdout s.out ++ Nat.toDigits 10 (s.x[r]).toNat ++ ['\n']) ∧
    (7 < a.toNat → ∃ r, r.kind = .outOfBounds ∧ r.detail = .registerIndex a ∧
      exec (.prn a) s = .next { s with state := .faulted, fault := some r })

/-- R55: HLT: its encoding whatever two bytes follow, its effect, no step after it, exit status 0, and
the fetch fault at 254 and 255 (the spec's decision D4). -/
def Obligations.HltHaltsForGood : Prop :=
  encode .hlt = [0b00000001#8] ∧ (∀ opA opB, decode 0b00000001#8 opA opB = .ok .hlt) ∧
  (∀ s : State, ∃ t, exec .hlt s = .next t ∧ t = { s with state := .halted, pc := s.pc + 1 } ∧
    exitStatus t = some 0 ∧ ∀ m u, stepWith m t ≠ .next u) ∧
  ∀ s : State, s.state = .running → (s.pc = 254 ∨ s.pc = 255) →
    ∃ t, step s = .next t ∧ t.state = .faulted

/-! The ALU. Each result statement gives the whole next state, so it is the instruction's frame too. -/

/-- R59: ADD is the sum modulo 256. -/
def Obligations.AddWrapsModulo256 : Prop :=
  ∀ (s : State) (a b : Byte) (d src : RegIndex), a.toNat = d.val → b.toNat = src.val →
    ∃ t, exec (.add a b) s = .next t ∧
      (t.x[d]).toNat = ((s.x[d]).toNat + (s.x[src]).toNat) % 256 ∧
      t = { s with x := s.x.set d t.x[d], pc := s.pc + 3 }

/-- R60: MUL is the low byte of the product. -/
def Obligations.MulKeepsLowByte : Prop :=
  ∀ (s : State) (a b : Byte) (d src : RegIndex), a.toNat = d.val → b.toNat = src.val →
    ∃ t, exec (.mul a b) s = .next t ∧
      (t.x[d]).toNat = ((s.x[d]).toNat * (s.x[src]).toNat) % 256 ∧
      t = { s with x := s.x.set d t.x[d], pc := s.pc + 3 }

/-- R68: MOD by a divisor other than 0 is the unsigned remainder, less than the divisor. -/
def Obligations.ModIsTheRemainder : Prop :=
  ∀ (s : State) (a b : Byte) (d src : RegIndex), a.toNat = d.val → b.toNat = src.val →
    s.x[src] ≠ 0#8 →
    ∃ t, exec (.mod a b) s = .next t ∧
      (t.x[d]).toNat = (s.x[d]).toNat % (s.x[src]).toNat ∧
      (t.x[d]).toNat < (s.x[src]).toNat ∧
      t = { s with x := s.x.set d t.x[d], pc := s.pc + 3 }

/-- R83: MOD by 0 raises DivideByZero and does not silently return 0; it is fatal to the run. -/
def Obligations.ModByZeroIsFatal : Prop :=
  ∀ (s : State) (a b : Byte) (d src : RegIndex), a.toNat = d.val → b.toNat = src.val →
    s.x[src] = 0#8 →
    ∃ t r, exec (.mod a b) s = .next t ∧ t.state = .faulted ∧ t.fault = some r ∧
      r.kind = .divideByZero ∧ r.detail = .divisorRegister src ∧ t.x = s.x ∧
      ∀ m u, stepWith m t ≠ .next u

/-- R62, R63, R64: AND, OR and XOR, bit by bit. -/
def Obligations.BitwiseResults : Prop :=
  ∀ (s : State) (a b : Byte) (d src : RegIndex), a.toNat = d.val → b.toNat = src.val →
    (∃ t, exec (.and a b) s = .next t ∧
      (∀ k, (t.x[d]).getLsbD k = ((s.x[d]).getLsbD k && (s.x[src]).getLsbD k)) ∧
      t = { s with x := s.x.set d t.x[d], pc := s.pc + 3 }) ∧
    (∃ t, exec (.or a b) s = .next t ∧
      (∀ k, (t.x[d]).getLsbD k = ((s.x[d]).getLsbD k || (s.x[src]).getLsbD k)) ∧
      t = { s with x := s.x.set d t.x[d], pc := s.pc + 3 }) ∧
    (∃ t, exec (.xor a b) s = .next t ∧
      (∀ k, (t.x[d]).getLsbD k = ((s.x[d]).getLsbD k ^^ (s.x[src]).getLsbD k)) ∧
      t = { s with x := s.x.set d t.x[d], pc := s.pc + 3 })

/-- R65: NOT complements its register in place, and twice restores it. -/
def Obligations.NotComplementsInPlace : Prop :=
  ∀ (s : State) (a : Byte) (d : RegIndex), a.toNat = d.val →
    ∃ t, exec (.not a) s = .next t ∧ (t.x[d]).toNat = 255 - (s.x[d]).toNat ∧
      t = { s with x := s.x.set d t.x[d], pc := s.pc + 2 } ∧
      ∃ u, exec (.not a) t = .next u ∧ u.x = s.x

/-- R66: SHL shifts by the whole byte of the source, unmasked: 8 and more give 0. -/
def Obligations.ShlIsNotMasked : Prop :=
  ∀ (s : State) (a b : Byte) (d src : RegIndex), a.toNat = d.val → b.toNat = src.val →
    ∃ t, exec (.shl a b) s = .next t ∧
      (t.x[d]).toNat = ((s.x[d]).toNat * 2 ^ (s.x[src]).toNat) % 256 ∧
      (8 ≤ (s.x[src]).toNat → t.x[d] = 0#8) ∧
      t = { s with x := s.x.set d t.x[d], pc := s.pc + 3 }

/-- R67: SHR is logical and shifts by the whole byte of the source: 8 and more give 0. -/
def Obligations.ShrIsLogicalAndNotMasked : Prop :=
  ∀ (s : State) (a b : Byte) (d src : RegIndex), a.toNat = d.val → b.toNat = src.val →
    ∃ t, exec (.shr a b) s = .next t ∧
      (t.x[d]).toNat = (s.x[d]).toNat / 2 ^ (s.x[src]).toNat ∧
      (8 ≤ (s.x[src]).toNat → t.x[d] = 0#8) ∧
      t = { s with x := s.x.set d t.x[d], pc := s.pc + 3 }

/-- R61: CMP is the unsigned comparison: exactly one flag, whatever FL held, and no register. -/
def Obligations.CmpSetsExactlyOneFlag : Prop :=
  ∀ (s : State) (a b : Byte) (d src : RegIndex), a.toNat = d.val → b.toNat = src.val →
    ∃ t, exec (.cmp a b) s = .next t ∧
      (t.fl.e = true ↔ (s.x[d]).toNat = (s.x[src]).toNat) ∧
      (t.fl.g = true ↔ (s.x[d]).toNat > (s.x[src]).toNat) ∧
      (t.fl.l = true ↔ (s.x[d]).toNat < (s.x[src]).toNat) ∧
      t.fl.e.toNat + t.fl.g.toNat + t.fl.l.toNat = 1 ∧
      t = { s with fl := t.fl, pc := s.pc + 3 }

/-- R57: what each operation of the ALU writes: every one but CMP its destination register, with its
result, CMP the flags, and nothing else. Every operation answers, MOD by a source other than 0. (The
results are R59 to R68's, the wrapped ones modulo 256.) -/
def Obligations.AluWritesOnlyItsResult : Prop :=
  (∀ (operation : AluOp) (d src : RegIndex) (s t : State),
    aluApply operation d src s = .ok t →
    if operation = .cmp then t = { s with fl := t.fl }
    else t = { s with x := s.x.set d t.x[d] }) ∧
  ∀ (d src : RegIndex) (s : State),
    (∃ t, aluApply .add d src s = .ok t ∧
      (t.x[d]).toNat = ((s.x[d]).toNat + (s.x[src]).toNat) % 256) ∧
    (∃ t, aluApply .mul d src s = .ok t ∧
      (t.x[d]).toNat = ((s.x[d]).toNat * (s.x[src]).toNat) % 256) ∧
    (∃ t, aluApply .cmp d src s = .ok t ∧
      (t.fl.e = true ↔ (s.x[d]).toNat = (s.x[src]).toNat) ∧
      (t.fl.g = true ↔ (s.x[d]).toNat > (s.x[src]).toNat) ∧
      (t.fl.l = true ↔ (s.x[d]).toNat < (s.x[src]).toNat)) ∧
    (∃ t, aluApply .and d src s = .ok t ∧
      ∀ k, (t.x[d]).getLsbD k = ((s.x[d]).getLsbD k && (s.x[src]).getLsbD k)) ∧
    (∃ t, aluApply .or d src s = .ok t ∧
      ∀ k, (t.x[d]).getLsbD k = ((s.x[d]).getLsbD k || (s.x[src]).getLsbD k)) ∧
    (∃ t, aluApply .xor d src s = .ok t ∧
      ∀ k, (t.x[d]).getLsbD k = ((s.x[d]).getLsbD k ^^ (s.x[src]).getLsbD k)) ∧
    (∃ t, aluApply .not d src s = .ok t ∧ (t.x[d]).toNat = 255 - (s.x[d]).toNat) ∧
    (∃ t, aluApply .shl d src s = .ok t ∧
      (t.x[d]).toNat = ((s.x[d]).toNat * 2 ^ (s.x[src]).toNat) % 256) ∧
    (∃ t, aluApply .shr d src s = .ok t ∧
      (t.x[d]).toNat = ((s.x[d]).toNat / 2 ^ (s.x[src]).toNat) % 256) ∧
    (s.x[src] ≠ 0#8 → ∃ t, aluApply .mod d src s = .ok t ∧
      (t.x[d]).toNat = (s.x[d]).toNat % (s.x[src]).toNat)

/-! The stack. -/

/-- R71 (the spec's decision D9 where the register is R7): PUSH. -/
def Obligations.PushStoresBelowTheStackPointer : Prop :=
  ∀ (s : State) (a : Byte) (r : RegIndex), a.toNat = r.val → s.x[7] ≠ 0#8 →
    s.mem.wf = true →
    ∃ t, exec (.push a) s = .next t ∧
      (t.x[7]).toNat + 1 = (s.x[7]).toNat ∧
      Memory.read t.mem ((s.x[7]).toNat - 1) = t.x[r] ∧
      (∀ c, c ≠ (s.x[7]).toNat - 1 → Memory.read t.mem c = Memory.read s.mem c) ∧
      t = { s with x := s.x.set 7 t.x[7], mem := t.mem, pc := s.pc + 2 }

/-- R72 (the spec's decision D9 where the register is R7): POP. -/
def Obligations.PopLoadsFromTheStackPointer : Prop :=
  ∀ (s : State) (a : Byte) (r : RegIndex) (v base : Byte), a.toNat = r.val →
    v = Memory.read s.mem (s.x[7]).toNat → base = (if r.val = 7 then v else s.x[7]) →
    base ≠ 255#8 →
    ∃ t, exec (.pop a) s = .next t ∧
      (t.x[7]).toNat = base.toNat + 1 ∧ (r.val ≠ 7 → t.x[r] = v) ∧
      t = { s with x := (s.x.set r t.x[r]).set 7 t.x[7], pc := s.pc + 2 }

/-- R70, R72 (the spec's decisions D8, and D9 where POP's register is R7; log entry 2): a stack
operation whose new SP would be −1 or 256 raises OutOfBounds with that value and writes nothing; the
record holds pc and opcode (R17, R87; D11). -/
def Obligations.StackPointerNeverWraps : Prop :=
  ∀ (s : State) (a : Byte) (r : RegIndex), a.toNat = r.val →
    (s.x[7] = 0#8 → ∀ i, (i = .push a ∨ i = .call a) →
      exec i s = .next { s with
        state := .faulted
        fault := some { pc := s.pc, opcode := some s.op, detail := .stackValue (-1) } }) ∧
    ((if r.val = 7 then Memory.read s.mem (s.x[7]).toNat else s.x[7]) = 255#8 →
      exec (.pop a) s = .next { s with
        state := .faulted
        fault := some { pc := s.pc, opcode := some s.op, detail := .stackValue 256 } }) ∧
    (s.x[7] = 255#8 →
      exec .ret s = .next { s with
        state := .faulted
        fault := some { pc := s.pc, opcode := some s.op, detail := .stackValue 256 } })

/-- R71, R72: PUSH then POP of one register leaves every register as it was, R7 included (the spec's
decision D9; log entry 2). -/
def Obligations.PushPopRoundTrip : Prop :=
  ∀ (s : State) (a : Byte) (r : RegIndex), a.toNat = r.val → s.x[7] ≠ 0#8 →
    s.mem.wf = true →
    ∃ t u, exec (.push a) s = .next t ∧ exec (.pop a) t = .next u ∧
      u = { s with mem := t.mem, pc := s.pc + 4 }

/-! Control transfer. -/

/-- R74 (the spec's decision D9 where the register is R7): CALL. -/
def Obligations.CallPushesTheReturnAddress : Prop :=
  ∀ (s : State) (a : Byte) (r : RegIndex), a.toNat = r.val → s.x[7] ≠ 0#8 →
    s.mem.wf = true → s.pc ≤ 253 →
    ∃ t, exec (.call a) s = .next t ∧
      (t.x[7]).toNat + 1 = (s.x[7]).toNat ∧
      (Memory.read t.mem ((s.x[7]).toNat - 1)).toNat = s.pc + 2 ∧
      (∀ c, c ≠ (s.x[7]).toNat - 1 → Memory.read t.mem c = Memory.read s.mem c) ∧
      t = { s with x := s.x.set 7 t.x[7], mem := t.mem, pc := (t.x[r]).toNat }

/-- R75: RET. -/
def Obligations.RetPopsTheProgramCounter : Prop :=
  ∀ s : State, s.x[7] ≠ 255#8 →
    ∃ t, exec .ret s = .next t ∧ (t.x[7]).toNat = (s.x[7]).toNat + 1 ∧
      t = { s with x := s.x.set 7 t.x[7], pc := (Memory.read s.mem (s.x[7]).toNat).toNat }

/-- R75, R79: a RET that finds SP and the byte there as the CALL left them returns to the instruction
after the CALL and restores SP. -/
def Obligations.CallThenRetReturns : Prop :=
  ∀ (s : State) (a : Byte) (r : RegIndex), a.toNat = r.val → s.x[7] ≠ 0#8 →
    s.mem.wf = true → s.pc ≤ 253 →
    ∃ t, exec (.call a) s = .next t ∧
      ∀ u : State, u.x[7] = t.x[7] →
        Memory.read u.mem (t.x[7]).toNat = Memory.read t.mem (t.x[7]).toNat →
        ∃ v, exec .ret u = .next v ∧ v.pc = s.pc + 2 ∧ v.x[7] = s.x[7]

/-- R76: JMP. -/
def Obligations.JmpJumpsToTheRegister : Prop :=
  ∀ (s : State) (a : Byte) (r : RegIndex), a.toNat = r.val →
    exec (.jmp a) s = .next { s with pc := (s.x[r]).toNat }

/-- R77, R78: JEQ branches exactly when E is set, JNE exactly when it is clear; otherwise each advances
by 2. -/
def Obligations.JeqAndJneTestEqualBit : Prop :=
  ∀ (s : State) (a : Byte) (r : RegIndex), a.toNat = r.val →
    (∃ t, exec (.jeq a) s = .next t ∧ t = { s with pc := t.pc } ∧
      (s.fl.e = true → t.pc = (s.x[r]).toNat) ∧ (s.fl.e = false → t.pc = s.pc + 2)) ∧
    (∃ t, exec (.jne a) s = .next t ∧ t = { s with pc := t.pc } ∧
      (s.fl.e = false → t.pc = (s.x[r]).toNat) ∧ (s.fl.e = true → t.pc = s.pc + 2))

/-! What every handler leaves alone. -/

/-- R12: a handler changes no register but the ones the table gives it, and none when it faults. -/
def Obligations.HandlersWriteOnlyTheirRegisters : Prop :=
  ∀ (i : Instr) (s t : State), exec i s = .next t →
    (∀ r : RegIndex, writesReg i r = false → t.x[r] = s.x[r]) ∧
    (s.state ≠ .faulted → t.state = .faulted → t.x = s.x)

/-- R15: only CMP writes FL, a fault does not, be it a handler's, a fetch's or an illegal opcode's, and
FL is read by JEQ and JNE alone, which read the E bit alone. -/
def Obligations.OnlyCmpWritesAndOnlyBranchesReadFlags : Prop :=
  (∀ (i : Instr) (s t : State), exec i s = .next t →
    ((∀ a b, i ≠ .cmp a b) → t.fl = s.fl) ∧
    (s.state ≠ .faulted → t.state = .faulted → t.fl = s.fl) ∧
    ∀ f : FlagReg, ((∃ a, i = .jeq a ∨ i = .jne a) → f.e = s.fl.e) →
      ∃ u, exec i { s with fl := f } = .next u ∧ { u with fl := t.fl } = t ∧
        (u.fl = f ∨ u.fl = t.fl)) ∧
  ∀ (m : OpcodeMap) (s t : State), stepWith m s = .next t → t.state = .faulted → t.fl = s.fl

/-- R27: which operations reach memory: fetch reads three bytes and writes none, PUSH and CALL write
`mem[SP-1]`, POP and RET read `mem[SP]`, and nothing else reads or writes it: the byte that PUSH and
CALL store comes from no byte of memory either. -/
def Obligations.OnlyFetchAndStackReachMemory : Prop :=
  (∀ (s : State) (mem : Memory),
    (∀ k, k < 3 → Memory.read mem (s.pc + k) = Memory.read s.mem (s.pc + k)) →
    fetch { s with mem := mem } = fetch s) ∧
  (∀ (i : Instr) (s t : State), s.mem.wf = true → exec i s = .next t →
    ((∀ a, i ≠ .push a ∧ i ≠ .call a) → t.mem = s.mem) ∧
    ∀ c, c + 1 ≠ (s.x[7]).toNat → Memory.read t.mem c = Memory.read s.mem c) ∧
  ∀ (i : Instr) (s t : State) (mem : Memory), exec i s = .next t →
    (((∃ a, i = .pop a) ∨ i = .ret) →
      Memory.read mem (s.x[7]).toNat = Memory.read s.mem (s.x[7]).toNat) →
    ∃ u, exec i { s with mem := mem } = .next u ∧ { u with mem := t.mem } = t ∧
      ∀ a : Byte, (i = .push a ∨ i = .call a) → a.toNat ≤ 7 → s.x[7] ≠ 0#8 →
        s.mem.wf = true → mem.wf = true →
        Memory.read u.mem ((s.x[7]).toNat - 1) = Memory.read t.mem ((s.x[7]).toNat - 1)

/-- R18: only PRN writes the output port, one byte at its end, and no instruction reads it. -/
def Obligations.OutputGrowsByPrnAlone : Prop :=
  ∀ (i : Instr) (s t : State), exec i s = .next t →
    (t.out = s.out ∨
      ∃ a r, i = .prn a ∧ a.toNat = (r : RegIndex).val ∧ t.out = s.out ++ [s.x[r]]) ∧
    ∀ out, ∃ u, exec i { s with out := out } = .next u ∧ { u with out := t.out } = t

/-- R16, R17, R21, R95: a handler leaves the latches and the trace alone; it leaves the engine state and
the fault record alone but for HLT, which halts, and a fault, which is taken. -/
def Obligations.HandlersKeepLatchesAndEngineState : Prop :=
  ∀ (i : Instr) (s t : State), exec i s = .next t →
    t.op = s.op ∧ t.opA = s.opA ∧ t.opB = s.opB ∧ t.trace = s.trace ∧
    ((t.state = s.state ∧ t.fault = s.fault) ∨
     (i = .hlt ∧ t.state = .halted ∧ t.fault = s.fault) ∨
     (∃ r : FaultRecord, r.sound = true ∧ r.pc = s.pc ∧ r.opcode = some s.op ∧
       t = { s with state := .faulted, fault := some r }))

/-- R21, R95: nothing reads the latches of an earlier step or the trace: a step from a state that
differs in them differs in them alone, so their values at reset (log entries 5 and 7) matter to
nothing else. -/
def Obligations.LatchesAndTraceAreNeverRead : Prop :=
  ∀ (m : OpcodeMap) (s t : State) (op opA opB : Byte) (trace : List TraceRecord),
    stepWith m s = .next t →
    ∃ u, stepWith m { s with op := op, opA := opA, opB := opB, trace := trace } = .next u ∧
      { u with op := t.op, opA := t.opA, opB := t.opB, trace := t.trace } = t

/-- R95 (the spec's decision D19; log entry 7): State.trace is the model's record of what the trace port
is offered, and grows whatever TRACE_ENABLED is, where R95 has a record emitted only where the port is
present. The port is offered one record per fetched instruction, legal or not, with the registers
before it runs, and none for a fetch that faults. -/
def Obligations.TraceRecordsEachFetch : Prop :=
  ∀ (m : OpcodeMap) (s t : State), stepWith m s = .next t →
    t.trace = s.trace ++
      if s.pc ≤ 253 then
        [{ pc := s.pc, op := Memory.read s.mem s.pc, opA := Memory.read s.mem (s.pc + 1)
           opB := Memory.read s.mem (s.pc + 2), x := s.x }]
      else []

/-! The host boundary. -/

/-- R103 (W1; the spec's decision D21): LDI then PRN prints exactly the decimal string of the value. -/
def Obligations.LdiThenPrnPrintsTheDecimalString : Prop :=
  ∀ (s : State) (a v : Byte), a.toNat < 8 →
    ∃ t u, exec (.ldi a v) s = .next t ∧ exec (.prn a) t = .next u ∧
      stdout u.out = stdout s.out ++ Nat.toDigits 10 v.toNat ++ ['\n']

/-- R97, R103: the exit status is 0 exactly after HALTED, and after FAULTED it is some non-zero value
(the parameter EXIT_STATUS_FAULT, any). -/
def Obligations.ExitStatusIsZeroExactlyAfterHalt : Prop :=
  ∀ s : State, (exitStatus s = some 0 ↔ s.state = .halted) ∧
    (s.state = .faulted ↔ ∃ n, exitStatus s = some n ∧ n ≠ 0) ∧
    (s.state = .running ↔ exitStatus s = none)

/-- R99, R100 (the spec's decision D18 for more than 256 lines): a program of at most 256 bytes, one
8-digit literal a line, is loaded from address 0 with every other cell 0; a longer one fails. -/
def Obligations.LoadStoresBytesFromZero : Prop :=
  ∀ bs : List Byte,
    (bs.length ≤ 256 → ∃ mem, load (some (fileImage bs)) = .ok mem ∧ mem.wf = true ∧
      ∀ k, Memory.read mem k = bs.getD k 0#8) ∧
    (256 < bs.length → load (some (fileImage bs)) = .error (.memoryIndex 256))

/-- R99, R100: a line of whitespace alone, and a line of whitespace, a `#` and anything, take no address:
such a line may be struck out anywhere. That whitespace is these four characters is the model's choice
(log entry 11). -/
def Obligations.LoaderSkipsIneffectiveLines : Prop :=
  ∀ (before after : List (List Char)) (blank line : List Char) (next : Nat) (mem : Memory),
    (∀ c ∈ blank, c = ' ' ∨ c = '\t' ∨ c = '\r' ∨ c = '\n') →
    (line = blank ∨ ∃ comment, line = blank ++ '#' :: comment) →
    loadLines (before ++ line :: after) next mem = loadLines (before ++ after) next mem

/-- R100: whitespace around a literal, and a comment after it or none, change nothing; a literal of 0s and
1s of value at most 255 is its value, a greater one (the spec's decision D18) and any other character,
whitespace between two digits included, is InvalidLiteral with the line. That whitespace is these four
characters is the model's choice (log entry 11). -/
def Obligations.LineIsReadByItsLiteral : Prop :=
  ∀ lead text trail tail line : List Char,
    (∀ c ∈ lead ++ trail, c = ' ' ∨ c = '\t' ∨ c = '\r' ∨ c = '\n') →
    text ≠ [] → (∀ c ∈ text, c ≠ '#') →
    (∀ c, text.head? = some c ∨ text.getLast? = some c →
      c ≠ ' ' ∧ c ≠ '\t' ∧ c ≠ '\r' ∧ c ≠ '\n') →
    (tail = [] ∨ ∃ comment, tail = '#' :: comment) → line = lead ++ text ++ trail ++ tail →
    ((∀ c ∈ text, c = '0' ∨ c = '1') →
      ∀ n, n = Nat.ofDigits 2 (text.reverse.map fun c => if c = '1' then 1 else 0) →
        loadLine line = if n ≤ 255 then .ok (some (BitVec.ofNat 8 n)) else .error (.line line)) ∧
    ((∃ c ∈ text, c ≠ '0' ∧ c ≠ '1') → loadLine line = .error (.line line))

/-- R80, R101: the ways a load fails: no source gives ProgramNotFound; a text gives InvalidLiteral with
one of its lines, or OutOfBounds at address 256. -/
def Obligations.LoadFailsInThreeWays : Prop :=
  load none = .error .noSource ∧ FaultDetail.noSource.kind = .programNotFound ∧
  ∀ (text : List Char) (d : FaultDetail), load (some text) = .error d →
    (d.kind = .invalidLiteral ∧ ∃ l ∈ splitLines text, d = .line l) ∨
    (d.kind = .outOfBounds ∧ d = .memoryIndex 256)

/-- R51 (the spec's decision D20): the assembly text of a well-formed instruction parses back to it,
whatever the labels. That a label is looked up only where the immediate is no number is the model's
choice (log entry 12). -/
def Obligations.AssemblyTextParsesBack : Prop :=
  ∀ (labels : Labels) (i : Instr), i.wellFormed = true → parseAsm labels (asmText i) = some i
end

