-- ==== Sys2Proof/Laws/Decode.lean ====
section
/-! SUPPORT. Dispatch: what a lookup answers under an opcode map. -/

namespace Sys2Proof

theorem Mnemonic.mem_all (k : Mnemonic) : k ∈ Mnemonic.all := by cases k <;> decide

theorem OpcodeMap.lookup_some {m : OpcodeMap} {op : Byte} {k : Mnemonic}
    (h : m.lookup op = some k) : m k = op := by
  simpa using List.find?_some h

theorem OpcodeMap.lookup_none {m : OpcodeMap} {op : Byte} :
    m.lookup op = none ↔ ∀ k, m k ≠ op := by
  simp [OpcodeMap.lookup, List.find?_eq_none, Mnemonic.mem_all]

/-- Under a valid map an opcode byte has at most one entry, so the lookup finds it. -/
theorem OpcodeMap.lookup_of_valid {m : OpcodeMap} (hm : m.Valid) (k : Mnemonic) :
    m.lookup (m k) = some k := by
  cases h : m.lookup (m k) with
  | none => exact absurd rfl (OpcodeMap.lookup_none.mp h k)
  | some j => rw [hm.1 j k (OpcodeMap.lookup_some h)]

/-- The default map is a valid one. -/
theorem Config.opcodeMap_valid : OpcodeMap.Valid Config.opcodeMap := by
  refine ⟨fun j k => ?_, fun k => ?_, rfl, rfl, rfl⟩
  · cases j <;> cases k <;> decide
  · cases k <;> decide

theorem decodeWith_ok {m : OpcodeMap} {op opA opB : Byte} {i : Instr} :
    decodeWith m op opA opB = .ok i ↔ ∃ k, m.lookup op = some k ∧ i = k.instr opA opB := by
  unfold decodeWith
  cases m.lookup op with
  | none => simp
  | some k => simpa using eq_comm

theorem decodeWith_error {m : OpcodeMap} {op opA opB : Byte} {r : Reject} :
    decodeWith m op opA opB = .error r ↔ (∀ k, m k ≠ op) ∧ r = .invalidInstruction op := by
  unfold decodeWith
  cases h : m.lookup op with
  | none => simp [OpcodeMap.lookup_none.mp h, eq_comm]
  | some k => simpa using fun h' => absurd (OpcodeMap.lookup_some h) (h' k)

end Sys2Proof
end

