-- ==== Sys2Proof/Laws/Memory.lean ====
section
/-! SUPPORT. Memory: read after write, and the canonical form is kept and determines the memory. -/

namespace Sys2Proof.Machine

@[simp] theorem Memory.wfFrom_nil (lo : Nat) : Memory.wfFrom lo [] = true := rfl

@[simp] theorem Memory.wfFrom_cons (lo a : Nat) (v : Byte) (m : Memory) :
    Memory.wfFrom lo ((a, v) :: m) = true ↔
      lo ≤ a ∧ a < 256 ∧ v ≠ Memory.unlisted ∧ Memory.wfFrom (a + 1) m = true := by
  simp [Memory.wfFrom, and_assoc]

@[simp] theorem Memory.read_nil (a : Nat) : Memory.read [] a = Memory.unlisted := rfl

@[simp] theorem Memory.read_cons (b : Nat) (w : Byte) (m : Memory) (a : Nat) :
    Memory.read ((b, w) :: m) a = if a = b then w else Memory.read m a := rfl

/-- A canonical form from a higher address is one from a lower. -/
theorem Memory.wfFrom_mono {lo lo' : Nat} (h : lo' ≤ lo) :
    ∀ {m : Memory}, Memory.wfFrom lo m = true → Memory.wfFrom lo' m = true
  | [], _ => rfl
  | (a, v) :: m, hm => by
    rw [Memory.wfFrom_cons] at hm ⊢
    exact ⟨h.trans hm.1, hm.2⟩

/-- Below the first listed address every byte reads as unlisted. -/
theorem Memory.read_of_lt {a : Nat} :
    ∀ {m : Memory} {lo : Nat}, Memory.wfFrom lo m = true → a < lo → m.read a = Memory.unlisted
  | [], _, _, _ => rfl
  | (b, w) :: m, lo, hm, ha => by
    rw [Memory.wfFrom_cons] at hm
    rw [Memory.read_cons, if_neg (by omega)]
    exact Memory.read_of_lt hm.2.2.2 (by omega)

/-- A write keeps the canonical form. -/
theorem Memory.wfFrom_write {a : Nat} (v : Byte) (ha : a < 256) :
    ∀ {m : Memory} {lo : Nat}, Memory.wfFrom lo m = true → lo ≤ a →
      Memory.wfFrom lo (m.write a v) = true
  | [], lo, _, hlo => by
    by_cases hv : v = Memory.unlisted <;> simp [Memory.write, hv, ha, hlo]
  | (b, w) :: m, lo, hm, hlo => by
    have hm' := hm
    rw [Memory.wfFrom_cons] at hm
    obtain ⟨h1, h2, h3, h4⟩ := hm
    unfold Memory.write
    split_ifs with hab hv heq hv
    · exact hm'
    · simp only [Memory.wfFrom_cons]
      exact ⟨hlo, ha, hv, by omega, h2, h3, h4⟩
    · exact Memory.wfFrom_mono (by omega) h4
    · simp only [Memory.wfFrom_cons]
      exact ⟨hlo, ha, hv, heq ▸ h4⟩
    · simp only [Memory.wfFrom_cons]
      exact ⟨h1, h2, h3, Memory.wfFrom_write v ha h4 (by omega)⟩

theorem Memory.wf_write {m : Memory} {a : Nat} (v : Byte) (hm : m.wf = true) (ha : a < 256) :
    (m.write a v).wf = true :=
  Memory.wfFrom_write v ha hm (Nat.zero_le a)

/-- What every address reads as after a write, in a canonical memory. -/
theorem Memory.readFrom_write {a : Nat} (v : Byte) (c : Nat) :
    ∀ {m : Memory} {lo : Nat}, Memory.wfFrom lo m = true →
      Memory.read (Memory.write m a v) c = if c = a then v else Memory.read m c
  | [], _, _ => by
    by_cases hv : v = Memory.unlisted <;> simp [Memory.write, hv]
  | (b, w) :: m, lo, hm => by
    rw [Memory.wfFrom_cons] at hm
    obtain ⟨-, -, -, h4⟩ := hm
    have low : ∀ d, d ≤ b → Memory.read m d = Memory.unlisted := fun d hd =>
      Memory.read_of_lt h4 (Nat.lt_succ_of_le hd)
    rcases Nat.lt_trichotomy a b with h | h | h
    · by_cases hv : v = Memory.unlisted
      · by_cases hc : c = a
        · simp [Memory.write, h, hv, hc, show ¬a = b by omega, low a (by omega)]
        · simp [Memory.write, h, hv, hc]
      · simp [Memory.write, h, hv]
    · subst h
      by_cases hv : v = Memory.unlisted
      · by_cases hc : c = a
        · simp [Memory.write, hv, hc, low a (by omega)]
        · simp [Memory.write, hv, hc]
      · by_cases hc : c = a <;> simp [Memory.write, hv, hc]
    · have ih := Memory.readFrom_write (a := a) v c h4
      by_cases hc : c = b
      · simp [Memory.write, show ¬a < b by omega, show ¬a = b by omega, hc, show ¬b = a by omega]
      · simp [Memory.write, show ¬a < b by omega, show ¬a = b by omega, hc, ih]

theorem Memory.read_write {m : Memory} (hm : m.wf = true) (a : Nat) (v : Byte) (c : Nat) :
    Memory.read (Memory.write m a v) c = if c = a then v else Memory.read m c :=
  Memory.readFrom_write v c hm

/-- Canonical memories that read the same are the same list. -/
theorem Memory.extFrom : ∀ {m m' : Memory} {lo : Nat}, Memory.wfFrom lo m = true →
    Memory.wfFrom lo m' = true → (∀ a, a < 256 → Memory.read m a = Memory.read m' a) → m = m'
  | [], [], _, _, _, _ => rfl
  | [], (b, w) :: m', lo, _, h', hr => by
    rw [Memory.wfFrom_cons] at h'
    have := hr b h'.2.1
    simp at this
    exact absurd this.symm h'.2.2.1
  | (b, w) :: m, [], lo, h, _, hr => by
    rw [Memory.wfFrom_cons] at h
    have := hr b h.2.1
    simp at this
    exact absurd this h.2.2.1
  | (b, w) :: m, (b', w') :: m', lo, h, h', hr => by
    rw [Memory.wfFrom_cons] at h h'
    have low : ∀ d, d ≤ b → Memory.read m d = Memory.unlisted := fun d hd =>
      Memory.read_of_lt h.2.2.2 (Nat.lt_succ_of_le hd)
    have low' : ∀ d, d ≤ b' → Memory.read m' d = Memory.unlisted := fun d hd =>
      Memory.read_of_lt h'.2.2.2 (Nat.lt_succ_of_le hd)
    have hb : b = b' := by
      rcases Nat.lt_trichotomy b b' with hlt | heq | hgt
      · have := hr b h.2.1
        simp [show ¬b = b' by omega, low' b (by omega)] at this
        exact absurd this h.2.2.1
      · exact heq
      · have := hr b' h'.2.1
        simp [show ¬b' = b by omega, low b' (by omega)] at this
        exact absurd this.symm h'.2.2.1
    subst hb
    have hw : w = w' := by simpa using hr b h.2.1
    subst hw
    rw [Memory.extFrom h.2.2.2 h'.2.2.2 fun a ha => ?_]
    by_cases hab : a = b
    · rw [hab, low b (Nat.le_refl b), low' b (Nat.le_refl b)]
    · simpa [hab] using hr a ha

theorem Memory.ext_of_wf {m m' : Memory} (h : m.wf = true) (h' : m'.wf = true)
    (hr : ∀ a, a < 256 → Memory.read m a = Memory.read m' a) : m = m' :=
  Memory.extFrom h h' hr

end Sys2Proof.Machine
end

