-- ==== Sys2Proof/Laws/State.lean ====
section
/-! SUPPORT. One lemma per field per update of State, each true by rfl. -/

namespace Sys2Proof.Machine

/-! The fields after `State.writeReg`. -/

@[simp] theorem State.writeReg_mem (s : State) (r : RegIndex) (v : Byte) : (s.writeReg r v).mem = s.mem := rfl
@[simp] theorem State.writeReg_x (s : State) (r : RegIndex) (v : Byte) : (s.writeReg r v).x = s.x.set r v := rfl
@[simp] theorem State.writeReg_pc (s : State) (r : RegIndex) (v : Byte) : (s.writeReg r v).pc = s.pc := rfl
@[simp] theorem State.writeReg_fl (s : State) (r : RegIndex) (v : Byte) : (s.writeReg r v).fl = s.fl := rfl
@[simp] theorem State.writeReg_state (s : State) (r : RegIndex) (v : Byte) : (s.writeReg r v).state = s.state := rfl
@[simp] theorem State.writeReg_fault (s : State) (r : RegIndex) (v : Byte) : (s.writeReg r v).fault = s.fault := rfl
@[simp] theorem State.writeReg_out (s : State) (r : RegIndex) (v : Byte) : (s.writeReg r v).out = s.out := rfl
@[simp] theorem State.writeReg_op (s : State) (r : RegIndex) (v : Byte) : (s.writeReg r v).op = s.op := rfl
@[simp] theorem State.writeReg_opA (s : State) (r : RegIndex) (v : Byte) : (s.writeReg r v).opA = s.opA := rfl
@[simp] theorem State.writeReg_opB (s : State) (r : RegIndex) (v : Byte) : (s.writeReg r v).opB = s.opB := rfl
@[simp] theorem State.writeReg_trace (s : State) (r : RegIndex) (v : Byte) : (s.writeReg r v).trace = s.trace := rfl

/-! The fields after `State.writeFlags`. -/

@[simp] theorem State.writeFlags_mem (s : State) (f : FlagReg) : (s.writeFlags f).mem = s.mem := rfl
@[simp] theorem State.writeFlags_x (s : State) (f : FlagReg) : (s.writeFlags f).x = s.x := rfl
@[simp] theorem State.writeFlags_pc (s : State) (f : FlagReg) : (s.writeFlags f).pc = s.pc := rfl
@[simp] theorem State.writeFlags_fl (s : State) (f : FlagReg) : (s.writeFlags f).fl = f := rfl
@[simp] theorem State.writeFlags_state (s : State) (f : FlagReg) : (s.writeFlags f).state = s.state := rfl
@[simp] theorem State.writeFlags_fault (s : State) (f : FlagReg) : (s.writeFlags f).fault = s.fault := rfl
@[simp] theorem State.writeFlags_out (s : State) (f : FlagReg) : (s.writeFlags f).out = s.out := rfl
@[simp] theorem State.writeFlags_op (s : State) (f : FlagReg) : (s.writeFlags f).op = s.op := rfl
@[simp] theorem State.writeFlags_opA (s : State) (f : FlagReg) : (s.writeFlags f).opA = s.opA := rfl
@[simp] theorem State.writeFlags_opB (s : State) (f : FlagReg) : (s.writeFlags f).opB = s.opB := rfl
@[simp] theorem State.writeFlags_trace (s : State) (f : FlagReg) : (s.writeFlags f).trace = s.trace := rfl

/-! The fields after `State.advance`. -/

@[simp] theorem State.advance_mem (s : State) (n : Nat) : (s.advance n).mem = s.mem := rfl
@[simp] theorem State.advance_x (s : State) (n : Nat) : (s.advance n).x = s.x := rfl
@[simp] theorem State.advance_pc (s : State) (n : Nat) : (s.advance n).pc = s.pc + n := rfl
@[simp] theorem State.advance_fl (s : State) (n : Nat) : (s.advance n).fl = s.fl := rfl
@[simp] theorem State.advance_state (s : State) (n : Nat) : (s.advance n).state = s.state := rfl
@[simp] theorem State.advance_fault (s : State) (n : Nat) : (s.advance n).fault = s.fault := rfl
@[simp] theorem State.advance_out (s : State) (n : Nat) : (s.advance n).out = s.out := rfl
@[simp] theorem State.advance_op (s : State) (n : Nat) : (s.advance n).op = s.op := rfl
@[simp] theorem State.advance_opA (s : State) (n : Nat) : (s.advance n).opA = s.opA := rfl
@[simp] theorem State.advance_opB (s : State) (n : Nat) : (s.advance n).opB = s.opB := rfl
@[simp] theorem State.advance_trace (s : State) (n : Nat) : (s.advance n).trace = s.trace := rfl

/-! The fields after `State.jump`. -/

@[simp] theorem State.jump_mem (s : State) (b : Byte) : (s.jump b).mem = s.mem := rfl
@[simp] theorem State.jump_x (s : State) (b : Byte) : (s.jump b).x = s.x := rfl
@[simp] theorem State.jump_pc (s : State) (b : Byte) : (s.jump b).pc = b.toNat := rfl
@[simp] theorem State.jump_fl (s : State) (b : Byte) : (s.jump b).fl = s.fl := rfl
@[simp] theorem State.jump_state (s : State) (b : Byte) : (s.jump b).state = s.state := rfl
@[simp] theorem State.jump_fault (s : State) (b : Byte) : (s.jump b).fault = s.fault := rfl
@[simp] theorem State.jump_out (s : State) (b : Byte) : (s.jump b).out = s.out := rfl
@[simp] theorem State.jump_op (s : State) (b : Byte) : (s.jump b).op = s.op := rfl
@[simp] theorem State.jump_opA (s : State) (b : Byte) : (s.jump b).opA = s.opA := rfl
@[simp] theorem State.jump_opB (s : State) (b : Byte) : (s.jump b).opB = s.opB := rfl
@[simp] theorem State.jump_trace (s : State) (b : Byte) : (s.jump b).trace = s.trace := rfl

/-! The fields after `State.emit`. -/

@[simp] theorem State.emit_mem (s : State) (v : Byte) : (s.emit v).mem = s.mem := rfl
@[simp] theorem State.emit_x (s : State) (v : Byte) : (s.emit v).x = s.x := rfl
@[simp] theorem State.emit_pc (s : State) (v : Byte) : (s.emit v).pc = s.pc := rfl
@[simp] theorem State.emit_fl (s : State) (v : Byte) : (s.emit v).fl = s.fl := rfl
@[simp] theorem State.emit_state (s : State) (v : Byte) : (s.emit v).state = s.state := rfl
@[simp] theorem State.emit_fault (s : State) (v : Byte) : (s.emit v).fault = s.fault := rfl
@[simp] theorem State.emit_out (s : State) (v : Byte) : (s.emit v).out = s.out ++ [v] := rfl
@[simp] theorem State.emit_op (s : State) (v : Byte) : (s.emit v).op = s.op := rfl
@[simp] theorem State.emit_opA (s : State) (v : Byte) : (s.emit v).opA = s.opA := rfl
@[simp] theorem State.emit_opB (s : State) (v : Byte) : (s.emit v).opB = s.opB := rfl
@[simp] theorem State.emit_trace (s : State) (v : Byte) : (s.emit v).trace = s.trace := rfl

/-! The fields after `State.halt`. -/

@[simp] theorem State.halt_mem (s : State) : (s.halt).mem = s.mem := rfl
@[simp] theorem State.halt_x (s : State) : (s.halt).x = s.x := rfl
@[simp] theorem State.halt_pc (s : State) : (s.halt).pc = s.pc := rfl
@[simp] theorem State.halt_fl (s : State) : (s.halt).fl = s.fl := rfl
@[simp] theorem State.halt_state (s : State) : (s.halt).state = .halted := rfl
@[simp] theorem State.halt_fault (s : State) : (s.halt).fault = s.fault := rfl
@[simp] theorem State.halt_out (s : State) : (s.halt).out = s.out := rfl
@[simp] theorem State.halt_op (s : State) : (s.halt).op = s.op := rfl
@[simp] theorem State.halt_opA (s : State) : (s.halt).opA = s.opA := rfl
@[simp] theorem State.halt_opB (s : State) : (s.halt).opB = s.opB := rfl
@[simp] theorem State.halt_trace (s : State) : (s.halt).trace = s.trace := rfl

/-! The fields after `State.takeFault`. -/

@[simp] theorem State.takeFault_mem (s : State) (o : Option Byte) (d : FaultDetail) : (s.takeFault o d).mem = s.mem := rfl
@[simp] theorem State.takeFault_x (s : State) (o : Option Byte) (d : FaultDetail) : (s.takeFault o d).x = s.x := rfl
@[simp] theorem State.takeFault_pc (s : State) (o : Option Byte) (d : FaultDetail) : (s.takeFault o d).pc = s.pc := rfl
@[simp] theorem State.takeFault_fl (s : State) (o : Option Byte) (d : FaultDetail) : (s.takeFault o d).fl = s.fl := rfl
@[simp] theorem State.takeFault_state (s : State) (o : Option Byte) (d : FaultDetail) : (s.takeFault o d).state = .faulted := rfl
@[simp] theorem State.takeFault_fault (s : State) (o : Option Byte) (d : FaultDetail) : (s.takeFault o d).fault = some ⟨s.pc, o, d⟩ := rfl
@[simp] theorem State.takeFault_out (s : State) (o : Option Byte) (d : FaultDetail) : (s.takeFault o d).out = s.out := rfl
@[simp] theorem State.takeFault_op (s : State) (o : Option Byte) (d : FaultDetail) : (s.takeFault o d).op = s.op := rfl
@[simp] theorem State.takeFault_opA (s : State) (o : Option Byte) (d : FaultDetail) : (s.takeFault o d).opA = s.opA := rfl
@[simp] theorem State.takeFault_opB (s : State) (o : Option Byte) (d : FaultDetail) : (s.takeFault o d).opB = s.opB := rfl
@[simp] theorem State.takeFault_trace (s : State) (o : Option Byte) (d : FaultDetail) : (s.takeFault o d).trace = s.trace := rfl

/-! The fields after `State.latch`. -/

@[simp] theorem State.latch_mem (s : State) (b0 b1 b2 : Byte) : (s.latch b0 b1 b2).mem = s.mem := rfl
@[simp] theorem State.latch_x (s : State) (b0 b1 b2 : Byte) : (s.latch b0 b1 b2).x = s.x := rfl
@[simp] theorem State.latch_pc (s : State) (b0 b1 b2 : Byte) : (s.latch b0 b1 b2).pc = s.pc := rfl
@[simp] theorem State.latch_fl (s : State) (b0 b1 b2 : Byte) : (s.latch b0 b1 b2).fl = s.fl := rfl
@[simp] theorem State.latch_state (s : State) (b0 b1 b2 : Byte) : (s.latch b0 b1 b2).state = s.state := rfl
@[simp] theorem State.latch_fault (s : State) (b0 b1 b2 : Byte) : (s.latch b0 b1 b2).fault = s.fault := rfl
@[simp] theorem State.latch_out (s : State) (b0 b1 b2 : Byte) : (s.latch b0 b1 b2).out = s.out := rfl
@[simp] theorem State.latch_op (s : State) (b0 b1 b2 : Byte) : (s.latch b0 b1 b2).op = b0 := rfl
@[simp] theorem State.latch_opA (s : State) (b0 b1 b2 : Byte) : (s.latch b0 b1 b2).opA = b1 := rfl
@[simp] theorem State.latch_opB (s : State) (b0 b1 b2 : Byte) : (s.latch b0 b1 b2).opB = b2 := rfl
@[simp] theorem State.latch_trace (s : State) (b0 b1 b2 : Byte) : (s.latch b0 b1 b2).trace = s.trace ++ [⟨s.pc, b0, b1, b2, s.x⟩] := rfl

end Sys2Proof.Machine
end

