-- ==== Sys2Proof/Laws/Ops.lean ====
section
/-! SUPPORT. One lemma per shared operation: everything it can answer. -/

namespace Sys2Proof.Machine

/-! `Raises`: when a bound computation answers and when it faults. -/

theorem Raises.bind_ok {α β : Type} {x : Raises α} {f : α → Raises β} {b : β} :
    (x >>= f) = .ok b ↔ ∃ a, x = .ok a ∧ f a = .ok b := by
  cases x <;> simp [bind, Except.bind]

theorem Raises.bind_error {α β : Type} {x : Raises α} {f : α → Raises β} {d : FaultDetail} :
    (x >>= f) = .error d ↔ x = .error d ∨ ∃ a, x = .ok a ∧ f a = .error d := by
  cases x <;> simp [bind, Except.bind]

theorem Raises.pure_ok {α : Type} {a b : α} : (pure a : Raises α) = .ok b ↔ a = b := by
  simp [pure, Except.pure]

theorem Raises.pure_error {α : Type} {a : α} {d : FaultDetail} : (pure a : Raises α) ≠ .error d := by
  simp [pure, Except.pure]

/-! Registers. -/

@[simp] theorem State.readReg_writeReg_same (s : State) (r : RegIndex) (v : Byte) :
    (s.writeReg r v).readReg r = v := by
  simp [State.readReg, State.writeReg]

theorem State.readReg_writeReg_ne (s : State) {r q : RegIndex} (v : Byte) (h : q ≠ r) :
    (s.writeReg r v).readReg q = s.readReg q := by
  have : r.val ≠ q.val := fun e => h (Fin.ext e.symm)
  simp [State.readReg, State.writeReg, this]

theorem State.readReg_writeReg (s : State) (r q : RegIndex) (v : Byte) :
    (s.writeReg r v).readReg q = if q = r then v else s.readReg q := by
  split
  · next h => subst h; simp
  · next h => exact s.readReg_writeReg_ne v h

/-! Memory access. -/

theorem State.memRead_ok {s : State} {a : Nat} {v : Byte} :
    s.memRead a = .ok v ↔ a < 256 ∧ v = Memory.read s.mem a := by
  unfold State.memRead; split <;> simp_all [eq_comm]

theorem State.memRead_error {s : State} {a : Nat} {d : FaultDetail} :
    s.memRead a = .error d ↔ 256 ≤ a ∧ d = .memoryIndex a := by
  unfold State.memRead
  split <;> simp [eq_comm] <;> omega

theorem State.memWrite_ok {s t : State} {a : Nat} {v : Byte} :
    s.memWrite a v = .ok t ↔ a < 256 ∧ t = { s with mem := Memory.write s.mem a v } := by
  unfold State.memWrite; split <;> simp_all [eq_comm]

theorem State.memWrite_error {s : State} {a : Nat} {v : Byte} {d : FaultDetail} :
    s.memWrite a v = .error d ↔ 256 ≤ a ∧ d = .memoryIndex a := by
  unfold State.memWrite
  split <;> simp [eq_comm] <;> omega

/-! The stack pointer. -/

theorem State.spDown_ok {s t : State} :
    s.spDown = .ok t ↔ s.sp ≠ 0#8 ∧ t = s.writeReg spIndex (s.sp - 1#8) := by
  unfold State.spDown; split <;> simp_all [eq_comm]

theorem State.spDown_error {s : State} {d : FaultDetail} :
    s.spDown = .error d ↔ s.sp = 0#8 ∧ d = .stackValue (-1) := by
  unfold State.spDown; split <;> simp_all [eq_comm]

theorem State.spUp_ok {s t : State} :
    s.spUp = .ok t ↔ s.sp ≠ 255#8 ∧ t = s.writeReg spIndex (s.sp + 1#8) := by
  unfold State.spUp; split <;> simp_all [eq_comm]

theorem State.spUp_error {s : State} {d : FaultDetail} :
    s.spUp = .error d ↔ s.sp = 255#8 ∧ d = .stackValue 256 := by
  unfold State.spUp; split <;> simp_all [eq_comm]

/-! Operands. -/

theorem regOperand_ok {i : Byte} {r : RegIndex} : regOperand i = .ok r ↔ i.toNat = r.val := by
  unfold regOperand
  split
  · simp [Fin.ext_iff]
  · simp; omega

theorem regOperand_error {i : Byte} {d : FaultDetail} :
    regOperand i = .error d ↔ 8 ≤ i.toNat ∧ d = .registerIndex i := by
  unfold regOperand
  split
  · simp; omega
  · simp [eq_comm]; omega

/-! Faults. -/

/-- A handler always answers a next state: its own effect, or the fault it raised taken. -/
theorem deliver_next {s t : State} {r : Raises State} :
    deliver s r = .next t ↔
      r = .ok t ∨ ∃ d, r = .error d ∧ t = s.takeFault (some s.op) d := by
  cases r <;> simp [deliver, eq_comm]

/-! The ALU. -/

/-- The value an operation other than CMP writes; none for CMP and for a name outside the table. -/
def AluOp.value : AluOp → Byte → Byte → Option Byte
  | .add, a, b => some (aluAdd a b)
  | .mul, a, b => some (aluMul a b)
  | .and, a, b => some (aluAnd a b)
  | .or, a, b => some (aluOr a b)
  | .xor, a, b => some (aluXor a b)
  | .not, a, _ => some (aluNot a)
  | .shl, a, b => some (aluShl a b)
  | .shr, a, b => some (aluShr a b)
  | .mod, a, b => some (aluMod a b)
  | .cmp, _, _ | .other _, _, _ => none

theorem aluApply_ok {operation : AluOp} {d src : RegIndex} {s t : State} :
    aluApply operation d src s = .ok t ↔
      (operation = .cmp ∧ t = s.writeFlags (cmpFlags (s.readReg d) (s.readReg src))) ∨
      (¬(operation = .mod ∧ s.readReg src = 0#8) ∧
        ∃ v, operation.value (s.readReg d) (s.readReg src) = some v ∧ t = s.writeReg d v) := by
  cases operation <;> simp [aluApply, AluOp.value, eq_comm]
  split <;> simp_all

theorem aluApply_error {operation : AluOp} {d src : RegIndex} {s : State} {e : FaultDetail} :
    aluApply operation d src s = .error e ↔
      (operation = .mod ∧ s.readReg src = 0#8 ∧ e = .divisorRegister src) ∨
      ∃ name, operation = .other name ∧ e = .operation name := by
  cases operation <;> simp [aluApply, eq_comm]
  split <;> simp_all

/-- What an RR instruction of the ALU can do. -/
theorem aluRR_next {operation : AluOp} {a b : Byte} {s t : State} :
    aluRR operation a b s = .next t ↔
      (∃ d src u, a.toNat = d.val ∧ b.toNat = src.val ∧ aluApply operation d src s = .ok u ∧
        t = u.advance 3) ∨
      ∃ e, t = s.takeFault (some s.op) e ∧
        ((8 ≤ a.toNat ∧ e = .registerIndex a) ∨
         (∃ d : RegIndex, a.toNat = d.val ∧ 8 ≤ b.toNat ∧ e = .registerIndex b) ∨
         ∃ d src : RegIndex, a.toNat = d.val ∧ b.toNat = src.val ∧
           aluApply operation d src s = .error e) := by
  simp only [aluRR, deliver_next, Raises.bind_ok, Raises.bind_error, Raises.pure_ok,
    Raises.pure_error, regOperand_ok, regOperand_error, and_false, exists_false, or_false]
  constructor
  · rintro (⟨d, hd, src, hs, u, hu, rfl⟩ | ⟨e, h, rfl⟩)
    · exact .inl ⟨d, src, u, hd, hs, hu, rfl⟩
    · refine .inr ⟨e, rfl, ?_⟩
      rcases h with h | ⟨d, hd, h | ⟨src, hs, h⟩⟩
      · exact .inl h
      · exact .inr (.inl ⟨d, hd, h⟩)
      · exact .inr (.inr ⟨d, src, hd, hs, h⟩)
  · rintro (⟨d, src, u, hd, hs, hu, rfl⟩ | ⟨e, rfl, h⟩)
    · exact .inl ⟨d, hd, src, hs, u, hu, rfl⟩
    · refine .inr ⟨e, ?_, rfl⟩
      rcases h with h | ⟨d, hd, h⟩ | ⟨d, src, hd, hs, h⟩
      · exact .inl h
      · exact .inr ⟨d, hd, .inl h⟩
      · exact .inr ⟨d, hd, .inr ⟨src, hs, h⟩⟩

end Sys2Proof.Machine
end

