-- ==== Sys2Proof/Laws/Exec.lean ====
section
/-! SUPPORT. What each meaning can do: one inversion lemma per instruction. An RR instruction of the
ALU is covered by `aluRR_next`. -/

namespace Sys2Proof.Machine

theorem execLdi_next {a imm : Byte} {s t : State} :
    execLdi a imm s = .next t ↔
      (∃ d : RegIndex, a.toNat = d.val ∧ t = (s.writeReg d imm).advance 3) ∨
      (8 ≤ a.toNat ∧ t = s.takeFault (some s.op) (.registerIndex a)) := by
  simp only [execLdi, immOperand, deliver_next, Raises.bind_ok, Raises.bind_error, Raises.pure_ok,
    Raises.pure_error, regOperand_ok, regOperand_error, and_false, exists_false, or_false]
  aesop

theorem execPrn_next {a : Byte} {s t : State} :
    execPrn a s = .next t ↔
      (∃ r : RegIndex, a.toNat = r.val ∧ t = (s.emit (s.readReg r)).advance 2) ∨
      (8 ≤ a.toNat ∧ t = s.takeFault (some s.op) (.registerIndex a)) := by
  simp only [execPrn, deliver_next, Raises.bind_ok, Raises.bind_error, Raises.pure_ok,
    Raises.pure_error, regOperand_ok, regOperand_error, and_false, exists_false, or_false]
  aesop

theorem execHlt_next {s t : State} : execHlt s = .next t ↔ t = s.halt.advance 1 := by
  simp [execHlt, deliver, eq_comm]

theorem execNot_next {a : Byte} {s t : State} :
    execNot a s = .next t ↔
      (∃ d : RegIndex, a.toNat = d.val ∧ t = (s.writeReg d (aluNot (s.readReg d))).advance 2) ∨
      (8 ≤ a.toNat ∧ t = s.takeFault (some s.op) (.registerIndex a)) := by
  simp only [execNot, aluApply, deliver_next, Raises.bind_ok, Raises.bind_error, Raises.pure_ok,
    Raises.pure_error, regOperand_ok, regOperand_error, and_false, exists_false, or_false]
  aesop

/-- The state after a push of `v` with SP already lowered: the byte lands at the new SP. -/
theorem execPush_next {a : Byte} {s t : State} :
    execPush a s = .next t ↔
      (∃ (r : RegIndex) (u : State), a.toNat = r.val ∧ s.sp ≠ 0#8 ∧
        u = s.writeReg spIndex (s.sp - 1#8) ∧
        t = { u with mem := Memory.write s.mem u.sp.toNat (u.readReg r), pc := s.pc + 2 }) ∨
      (∃ d, t = s.takeFault (some s.op) d ∧
        ((8 ≤ a.toNat ∧ d = .registerIndex a) ∨
         (a.toNat < 8 ∧ s.sp = 0#8 ∧ d = .stackValue (-1)))) := by
  have hlt : ∀ b : Byte, b.toNat < 256 := fun b => b.isLt
  have hge : ∀ b : Byte, ¬ 256 ≤ b.toNat := fun b => by have := hlt b; omega
  simp only [execPush, deliver_next, Raises.bind_ok, Raises.bind_error, Raises.pure_ok,
    Raises.pure_error, regOperand_ok, regOperand_error, State.spDown_ok, State.spDown_error,
    State.memWrite_ok, State.memWrite_error, hlt, hge, true_and, false_and, and_false,
    exists_false, or_false]
  constructor
  · rintro (⟨r, hr, u, ⟨hsp, rfl⟩, w, rfl, rfl⟩ | ⟨d, h | ⟨r, hr, h⟩, rfl⟩)
    · exact .inl ⟨r, _, hr, hsp, rfl, rfl⟩
    · exact .inr ⟨d, rfl, .inl h⟩
    · exact .inr ⟨d, rfl, .inr ⟨hr ▸ r.isLt, h⟩⟩
  · rintro (⟨r, u, hr, hsp, rfl, rfl⟩ | ⟨d, rfl, h | ⟨ha, h⟩⟩)
    · exact .inl ⟨r, hr, _, ⟨hsp, rfl⟩, _, rfl, rfl⟩
    · exact .inr ⟨d, .inl h, rfl⟩
    · exact .inr ⟨d, .inr ⟨⟨a.toNat, ha⟩, rfl, h⟩, rfl⟩

theorem execPop_next {a : Byte} {s t : State} :
    execPop a s = .next t ↔
      (∃ (r : RegIndex) (u : State), a.toNat = r.val ∧
        u = s.writeReg r (Memory.read s.mem s.sp.toNat) ∧ u.sp ≠ 255#8 ∧
        t = (u.writeReg spIndex (u.sp + 1#8)).advance 2) ∨
      (∃ d, t = s.takeFault (some s.op) d ∧
        ((8 ≤ a.toNat ∧ d = .registerIndex a) ∨
         (∃ r : RegIndex, a.toNat = r.val ∧
           (s.writeReg r (Memory.read s.mem s.sp.toNat)).sp = 255#8 ∧ d = .stackValue 256))) := by
  have hlt : ∀ b : Byte, b.toNat < 256 := fun b => b.isLt
  have hge : ∀ b : Byte, ¬ 256 ≤ b.toNat := fun b => by have := hlt b; omega
  simp only [execPop, deliver_next, Raises.bind_ok, Raises.bind_error, Raises.pure_ok,
    Raises.pure_error, regOperand_ok, regOperand_error, State.spUp_ok, State.spUp_error,
    State.memRead_ok, State.memRead_error, hlt, hge, true_and, false_and, and_false,
    exists_false, or_false, false_or]
  constructor
  · rintro (⟨r, hr, v, rfl, u, ⟨hsp, rfl⟩, rfl⟩ | ⟨d, h | ⟨r, hr, v, rfl, h⟩, rfl⟩)
    · exact .inl ⟨r, _, hr, rfl, hsp, rfl⟩
    · exact .inr ⟨d, rfl, .inl h⟩
    · exact .inr ⟨d, rfl, .inr ⟨r, hr, h⟩⟩
  · rintro (⟨r, u, hr, rfl, hsp, rfl⟩ | ⟨d, rfl, h | ⟨r, hr, h⟩⟩)
    · exact .inl ⟨r, hr, _, rfl, _, ⟨hsp, rfl⟩, rfl⟩
    · exact .inr ⟨d, .inl h, rfl⟩
    · exact .inr ⟨d, .inr ⟨r, hr, _, rfl, h⟩, rfl⟩

theorem execCall_next {a : Byte} {s t : State} :
    execCall a s = .next t ↔
      (∃ (r : RegIndex) (u : State), a.toNat = r.val ∧ s.sp ≠ 0#8 ∧
        u = s.writeReg spIndex (s.sp - 1#8) ∧
        t = { u with
              mem := Memory.write s.mem u.sp.toNat (mod256 (s.pc + 2))
              pc := (u.readReg r).toNat }) ∨
      (∃ d, t = s.takeFault (some s.op) d ∧
        ((8 ≤ a.toNat ∧ d = .registerIndex a) ∨
         (a.toNat < 8 ∧ s.sp = 0#8 ∧ d = .stackValue (-1)))) := by
  have hlt : ∀ b : Byte, b.toNat < 256 := fun b => b.isLt
  have hge : ∀ b : Byte, ¬ 256 ≤ b.toNat := fun b => by have := hlt b; omega
  simp only [execCall, deliver_next, Raises.bind_ok, Raises.bind_error, Raises.pure_ok,
    Raises.pure_error, regOperand_ok, regOperand_error, State.spDown_ok, State.spDown_error,
    State.memWrite_ok, State.memWrite_error, hlt, hge, true_and, false_and, and_false,
    exists_false, or_false]
  constructor
  · rintro (⟨r, hr, u, ⟨hsp, rfl⟩, w, rfl, rfl⟩ | ⟨d, h | ⟨r, hr, h⟩, rfl⟩)
    · exact .inl ⟨r, _, hr, hsp, rfl, rfl⟩
    · exact .inr ⟨d, rfl, .inl h⟩
    · exact .inr ⟨d, rfl, .inr ⟨hr ▸ r.isLt, h⟩⟩
  · rintro (⟨r, u, hr, hsp, rfl, rfl⟩ | ⟨d, rfl, h | ⟨ha, h⟩⟩)
    · exact .inl ⟨r, hr, _, ⟨hsp, rfl⟩, _, rfl, rfl⟩
    · exact .inr ⟨d, .inl h, rfl⟩
    · exact .inr ⟨d, .inr ⟨⟨a.toNat, ha⟩, rfl, h⟩, rfl⟩

theorem execRet_next {s t : State} :
    execRet s = .next t ↔
      (s.sp ≠ 255#8 ∧
        t = (s.writeReg spIndex (s.sp + 1#8)).jump (Memory.read s.mem s.sp.toNat)) ∨
      (s.sp = 255#8 ∧ t = s.takeFault (some s.op) (.stackValue 256)) := by
  have hlt : ∀ b : Byte, b.toNat < 256 := fun b => b.isLt
  have hge : ∀ b : Byte, ¬ 256 ≤ b.toNat := fun b => by have := hlt b; omega
  simp only [execRet, deliver_next, Raises.bind_ok, Raises.bind_error, Raises.pure_ok,
    Raises.pure_error, State.spUp_ok, State.spUp_error, State.memRead_ok, State.memRead_error,
    hlt, hge, true_and, false_and, and_false, exists_false, or_false]
  aesop

theorem execJmp_next {a : Byte} {s t : State} :
    execJmp a s = .next t ↔
      (∃ r : RegIndex, a.toNat = r.val ∧ t = s.jump (s.readReg r)) ∨
      (8 ≤ a.toNat ∧ t = s.takeFault (some s.op) (.registerIndex a)) := by
  simp only [execJmp, deliver_next, Raises.bind_ok, Raises.bind_error, Raises.pure_ok,
    Raises.pure_error, regOperand_ok, regOperand_error, and_false, exists_false, or_false]
  aesop

theorem execJeq_next {a : Byte} {s t : State} :
    execJeq a s = .next t ↔
      (∃ r : RegIndex, a.toNat = r.val ∧
        t = if s.fl.e then s.jump (s.readReg r) else s.advance 2) ∨
      (8 ≤ a.toNat ∧ t = s.takeFault (some s.op) (.registerIndex a)) := by
  simp only [execJeq, deliver_next, Raises.bind_ok, Raises.bind_error, Raises.pure_ok,
    Raises.pure_error, regOperand_ok, regOperand_error, and_false, exists_false, or_false]
  aesop

theorem execJne_next {a : Byte} {s t : State} :
    execJne a s = .next t ↔
      (∃ r : RegIndex, a.toNat = r.val ∧
        t = if s.fl.e then s.advance 2 else s.jump (s.readReg r)) ∨
      (8 ≤ a.toNat ∧ t = s.takeFault (some s.op) (.registerIndex a)) := by
  simp only [execJne, deliver_next, Raises.bind_ok, Raises.bind_error, Raises.pure_ok,
    Raises.pure_error, regOperand_ok, regOperand_error, and_false, exists_false, or_false]
  aesop

end Sys2Proof.Machine
end

