-- ==== Sys2Proof/Laws/Loader.lean ====
section
/-! SUPPORT. What is put into memory from outside keeps its canonical form. -/

namespace Sys2Proof.Machine

theorem loadLines_wf : ∀ {lines : List (List Char)} {next : Nat} {mem mem' : Memory},
    mem.wf = true → loadLines lines next mem = .ok mem' → mem'.wf = true
  | [], _, _, _, hw, h => by
    obtain rfl : _ = _ := by simpa [loadLines] using h
    exact hw
  | line :: lines, next, mem, mem', hw, h => by
    unfold loadLines at h
    split at h
    · simp at h
    · exact loadLines_wf hw h
    · split at h
      · simp at h
      · exact loadLines_wf (Memory.wf_write _ hw (by omega)) h

theorem load_wf {source : Option (List Char)} {mem : Memory} (h : load source = .ok mem) :
    mem.wf = true := by
  cases source with
  | none => simp [load] at h
  | some text => exact loadLines_wf rfl h

theorem State.placeInstruction_wf {s : State} (h : s.mem.wf = true) (b0 b1 b2 : Byte) :
    (s.placeInstruction b0 b1 b2).mem.wf = true := by
  simp only [State.placeInstruction, State.fetchable]
  refine Memory.wf_write _ (Memory.wf_write _ (Memory.wf_write _ h ?_) ?_) ?_ <;>
    (simp only [decide_eq_true_eq]; split <;> omega)

end Sys2Proof.Machine
end

