-- ==== Sys2Proof/Laws/PerInstr.lean ====
section
/-! SUPPORT. One lemma per constructor about an instruction as syntax. -/

namespace Sys2Proof.Laws

/-- The shape of an encoding under every opcode map: it begins with the map's byte, it has the static
width of R43, and its register bytes are the first operand bytes (R37, R39). -/
def EncodeShape.Statement (i : Instr) : Prop :=
  ∀ m : OpcodeMap, (encodeWith m i).head? = some (m i.mnemonic) ∧
    (encodeWith m i).length = i.width ∧
    i.registerBytes = i.operandBytes.take i.registerBytes.length

theorem EncodeShape.ldi (a b : Byte) : EncodeShape.Statement (.ldi a b) := fun _ => ⟨rfl, rfl, rfl⟩
theorem EncodeShape.prn (a : Byte) : EncodeShape.Statement (.prn a) := fun _ => ⟨rfl, rfl, rfl⟩
theorem EncodeShape.hlt : EncodeShape.Statement .hlt := fun _ => ⟨rfl, rfl, rfl⟩
theorem EncodeShape.mul (a b : Byte) : EncodeShape.Statement (.mul a b) := fun _ => ⟨rfl, rfl, rfl⟩
theorem EncodeShape.add (a b : Byte) : EncodeShape.Statement (.add a b) := fun _ => ⟨rfl, rfl, rfl⟩
theorem EncodeShape.push (a : Byte) : EncodeShape.Statement (.push a) := fun _ => ⟨rfl, rfl, rfl⟩
theorem EncodeShape.pop (a : Byte) : EncodeShape.Statement (.pop a) := fun _ => ⟨rfl, rfl, rfl⟩
theorem EncodeShape.call (a : Byte) : EncodeShape.Statement (.call a) := fun _ => ⟨rfl, rfl, rfl⟩
theorem EncodeShape.ret : EncodeShape.Statement .ret := fun _ => ⟨rfl, rfl, rfl⟩
theorem EncodeShape.cmp (a b : Byte) : EncodeShape.Statement (.cmp a b) := fun _ => ⟨rfl, rfl, rfl⟩
theorem EncodeShape.jmp (a : Byte) : EncodeShape.Statement (.jmp a) := fun _ => ⟨rfl, rfl, rfl⟩
theorem EncodeShape.jeq (a : Byte) : EncodeShape.Statement (.jeq a) := fun _ => ⟨rfl, rfl, rfl⟩
theorem EncodeShape.jne (a : Byte) : EncodeShape.Statement (.jne a) := fun _ => ⟨rfl, rfl, rfl⟩
theorem EncodeShape.and (a b : Byte) : EncodeShape.Statement (.and a b) := fun _ => ⟨rfl, rfl, rfl⟩
theorem EncodeShape.or (a b : Byte) : EncodeShape.Statement (.or a b) := fun _ => ⟨rfl, rfl, rfl⟩
theorem EncodeShape.xor (a b : Byte) : EncodeShape.Statement (.xor a b) := fun _ => ⟨rfl, rfl, rfl⟩
theorem EncodeShape.shl (a b : Byte) : EncodeShape.Statement (.shl a b) := fun _ => ⟨rfl, rfl, rfl⟩
theorem EncodeShape.shr (a b : Byte) : EncodeShape.Statement (.shr a b) := fun _ => ⟨rfl, rfl, rfl⟩
theorem EncodeShape.mod (a b : Byte) : EncodeShape.Statement (.mod a b) := fun _ => ⟨rfl, rfl, rfl⟩
theorem EncodeShape.not (a : Byte) : EncodeShape.Statement (.not a) := fun _ => ⟨rfl, rfl, rfl⟩

end Sys2Proof.Laws
end

