-- ==== Sys2Proof/Laws/Run.lean ====
section
/-! SUPPORT. Runs: the model's relation is the host's run function, and it is deterministic. -/

namespace Sys2Proof.Machine

@[simp] theorem runsTo_zero {s t : State} : RunsTo 0 s t ↔ s = t := Iff.rfl

theorem runsTo_succ {n : Nat} {s t : State} :
    RunsTo (n + 1) s t ↔ ∃ u, step s = .next u ∧ RunsTo n u t := Iff.rfl

theorem runsTo_det {n : Nat} {s t u : State} (h : RunsTo n s t) (g : RunsTo n s u) : t = u := by
  induction n generalizing s with
  | zero => exact h.symm.trans g
  | succ n ih =>
    obtain ⟨v, hv, h⟩ := h
    obtain ⟨w, hw, g⟩ := g
    obtain rfl : v = w := by simpa [hv] using hw
    exact ih h g

/-- A run is what `Host.Core.run` answers. -/
theorem runsTo_iff_run {n : Nat} {s t : State} :
    RunsTo n s t ↔ Sys2Proof.core.run n s = .next t := by
  induction n generalizing s with
  | zero => exact ⟨fun h => congrArg _ h, fun h => Host.Outcome.next.inj h⟩
  | succ n ih =>
    rw [runsTo_succ]
    cases h : Sys2Proof.core.step s with
    | next u =>
      have hs : step s = .next u := h
      simp only [Host.Core.run, h, hs]
      refine ⟨?_, fun g => ⟨u, rfl, ih.mpr g⟩⟩
      rintro ⟨v, hv, g⟩
      exact ih.mp ((Host.Outcome.next.inj hv) ▸ g)
    | fault r =>
      have hs : step s = .fault r := h
      simp only [Host.Core.run, h, hs]
      exact ⟨fun ⟨_, hv, _⟩ => (nomatch hv), fun g => (nomatch g)⟩
    | refused r =>
      have hs : step s = .refused r := h
      simp only [Host.Core.run, h, hs]
      exact ⟨fun ⟨_, hv, _⟩ => (nomatch hv), fun g => (nomatch g)⟩

end Sys2Proof.Machine
end

