-- ==== Sys2Proof/Laws/Step.lean ====
section
/-! SUPPORT. What a fetch and a step can do. -/

namespace Sys2Proof.Machine

theorem fetch_ok {s : State} {op opA opB : Byte} :
    fetch s = .ok (op, opA, opB) ↔
      s.pc ≤ 253 ∧ op = Memory.read s.mem s.pc ∧ opA = Memory.read s.mem (s.pc + 1) ∧
        opB = Memory.read s.mem (s.pc + 2) := by
  simp only [fetch, Raises.bind_ok, Raises.pure_ok, State.memRead_ok, Prod.mk.injEq]
  constructor
  · rintro ⟨_, ⟨-, rfl⟩, _, ⟨-, rfl⟩, _, ⟨h, rfl⟩, rfl, rfl, rfl⟩
    exact ⟨by omega, rfl, rfl, rfl⟩
  · rintro ⟨h, rfl, rfl, rfl⟩
    exact ⟨_, ⟨by omega, rfl⟩, _, ⟨by omega, rfl⟩, _, ⟨by omega, rfl⟩, rfl, rfl, rfl⟩

/-- A fetch faults beyond 253, at the first address above 255. -/
theorem fetch_error {s : State} {d : FaultDetail} :
    fetch s = .error d ↔ 253 < s.pc ∧ d = .memoryIndex (max 256 s.pc) := by
  simp only [fetch, Raises.bind_error, Raises.pure_error, State.memRead_ok, State.memRead_error,
    and_false, exists_false, or_false]
  constructor
  · rintro (⟨h, rfl⟩ | ⟨_, ⟨h0, -⟩, ⟨h, rfl⟩ | ⟨_, ⟨h1, -⟩, h, rfl⟩⟩)
    · exact ⟨by omega, by rw [Nat.max_eq_right h]⟩
    · exact ⟨by omega, congrArg _ (by omega)⟩
    · exact ⟨by omega, congrArg _ (by omega)⟩
  · rintro ⟨h, rfl⟩
    by_cases h0 : 256 ≤ s.pc
    · exact .inl ⟨h0, congrArg _ (by omega)⟩
    · refine .inr ⟨_, ⟨by omega, rfl⟩, ?_⟩
      by_cases h1 : 256 ≤ s.pc + 1
      · exact .inl ⟨h1, congrArg _ (by omega)⟩
      · exact .inr ⟨_, ⟨by omega, rfl⟩, by omega, congrArg _ (by omega)⟩

/-- Every handler answers a next state: this core refuses and stops on no instruction. -/
theorem exec_answers (i : Instr) (s : State) : ∃ t, exec i s = .next t := by
  have h : ∀ r, ∃ t, deliver s r = .next t := fun r => by
    cases r with
    | ok t => exact ⟨t, rfl⟩
    | error d => exact ⟨_, rfl⟩
  cases i
  case hlt => exact ⟨_, rfl⟩
  all_goals exact h _

/-- The state a handler starts in: the three bytes at pc latched and offered to the trace port. -/
def State.fetched (s : State) : State :=
  s.latch (Memory.read s.mem s.pc) (Memory.read s.mem (s.pc + 1)) (Memory.read s.mem (s.pc + 2))

/-- Everything one step can do. -/
theorem stepWith_next {m : OpcodeMap} {s t : State} :
    stepWith m s = .next t ↔ s.state = .running ∧
      ((253 < s.pc ∧ t = s.takeFault none (.memoryIndex (max 256 s.pc))) ∨
       (s.pc ≤ 253 ∧ (∀ k, m k ≠ s.fetched.op) ∧
          t = s.fetched.takeFault (some s.fetched.op) (.opcode s.fetched.op)) ∨
       (s.pc ≤ 253 ∧ ∃ i, decodeWith m s.fetched.op s.fetched.opA s.fetched.opB = .ok i ∧
          exec i s.fetched = .next t)) := by
  cases hs : s.state
  case halted => simp [stepWith, hs]
  case faulted => simp [stepWith, hs]
  simp only [stepWith, hs, true_and]
  unfold cycleWith
  cases hf : fetch s with
  | error d =>
    obtain ⟨h, rfl⟩ := fetch_error.mp hf
    simp [h, show ¬ s.pc ≤ 253 by omega, eq_comm]
  | ok b =>
    obtain ⟨op, opA, opB⟩ := b
    obtain ⟨h, rfl, rfl, rfl⟩ := fetch_ok.mp hf
    simp only [h, show ¬ 253 < s.pc by omega, false_and, false_or, true_and]
    change dispatchWith m s.fetched = _ ↔ _
    unfold dispatchWith
    cases hd : decodeWith m s.fetched.op s.fetched.opA s.fetched.opB with
    | error r =>
      obtain ⟨hk, -⟩ := decodeWith_error.mp hd
      simp [deliver, hk, eq_comm]
    | ok i =>
      obtain ⟨k, hk, -⟩ := decodeWith_ok.mp hd
      have hne : ¬ ∀ k, m k ≠ s.fetched.op := fun h => h k (OpcodeMap.lookup_some hk)
      simp [hne]

end Sys2Proof.Machine
end

