-- ==== Sys2Proof/Tests/Slice0.lean ====
section
/-! SUPPORT. The model's own tests. Expected results are those of spec/95_test_vectors.md (V1 to V88, W1
to W9), worked from the rules by the spec's writer, or hand-worked from the encoding table of R39 and
R42; none comes from the model. Then a witness for the hypotheses of each statement. -/

namespace Sys2Proof.Tests

open Sys2Proof Sys2Proof.Machine

/-- A state that differs from reset in pc, the bytes from pc on, and some registers. -/
def stateAt (pc : Nat) (bytes : List Byte) (regs : List (RegIndex × Byte)) : State :=
  { State.reset with
    pc := pc
    mem := (bytes.zipIdx pc).foldl (fun m b => Memory.write m b.2 b.1) []
    x := regs.foldl (fun x r => x.set r.1 r.2) State.reset.x }

/-- The next state, if there is one. -/
def after (s : State) : Option State :=
  match step s with
  | .next t => some t
  | _ => none

/-- A register and the pc after a step. -/
def regAndPc (r : RegIndex) (s : State) : Option (Byte × Nat) := (after s).map fun t => (t.x[r], t.pc)

/-- The detail and the opcode of the fault a step takes, with the pc it leaves. -/
def faultOf (s : State) : Option (FaultDetail × Option Byte × Nat) :=
  (after s).bind fun t => t.fault.map fun r => (r.detail, r.opcode, t.pc)

/-! Well-formedness: one ill-formed term for each check. -/

theorem test_wellFormed_refuses_A_of_RI : (Instr.ldi 8 0).wellFormed = false := by decide
theorem test_wellFormed_refuses_A_of_R : (Instr.push 255).wellFormed = false := by decide
theorem test_wellFormed_refuses_A_of_RR : (Instr.add 8 0).wellFormed = false := by decide
theorem test_wellFormed_refuses_B_of_RR : (Instr.add 7 8).wellFormed = false := by decide
theorem test_wellFormed_admits_any_immediate : (Instr.ldi 7 255).wellFormed = true := by decide

/-! Decoding: a word of each instruction, written out from R39 and R42, first byte lowest. -/

theorem test_decode_ldi : decodeTableWord 24 0b00001000_00000000_10000010 = some (.ldi 0 8) := by decide
theorem test_decode_prn : decodeTableWord 16 0b00000011_01000111 = some (.prn 3) := by decide
theorem test_decode_hlt : decodeTableWord 8 0b00000001 = some .hlt := by decide
theorem test_decode_mul : decodeTableWord 24 0b00000110_00000101_10100010 = some (.mul 5 6) := by decide
theorem test_decode_add : decodeTableWord 24 0b00000010_00000001_10100000 = some (.add 1 2) := by decide
theorem test_decode_push : decodeTableWord 16 0b00000110_01000101 = some (.push 6) := by decide
theorem test_decode_pop : decodeTableWord 16 0b00000001_01000110 = some (.pop 1) := by decide
theorem test_decode_call : decodeTableWord 16 0b00000111_01010000 = some (.call 7) := by decide
theorem test_decode_ret : decodeTableWord 8 0b00010001 = some .ret := by decide
theorem test_decode_cmp : decodeTableWord 24 0b00000100_00000011_10100111 = some (.cmp 3 4) := by decide
theorem test_decode_jmp : decodeTableWord 16 0b00000101_01010100 = some (.jmp 5) := by decide
theorem test_decode_jeq : decodeTableWord 16 0b00000010_01010101 = some (.jeq 2) := by decide
theorem test_decode_jne : decodeTableWord 16 0b00000100_01010110 = some (.jne 4) := by decide
theorem test_decode_and : decodeTableWord 24 0b00000010_00000001_10101000 = some (.and 1 2) := by decide
theorem test_decode_or : decodeTableWord 24 0b00000010_00000001_10101010 = some (.or 1 2) := by decide
theorem test_decode_xor : decodeTableWord 24 0b00000010_00000001_10101011 = some (.xor 1 2) := by decide
theorem test_decode_shl : decodeTableWord 24 0b00000010_00000001_10101100 = some (.shl 1 2) := by decide
theorem test_decode_shr : decodeTableWord 24 0b00000010_00000001_10101101 = some (.shr 1 2) := by decide
theorem test_decode_mod : decodeTableWord 24 0b00000010_00000001_10100100 = some (.mod 1 2) := by decide
theorem test_decode_not : decodeTableWord 16 0b00000010_01101001 = some (.not 2) := by decide
/-- Operand words the table gives no bits are zeros; a register operand above 7 still decodes. -/
theorem test_decode_short_word : decodeTableWord 8 0b11111111_10100000 = some (.add 0 0) := by decide
theorem test_decode_register_above_seven : decodeTableWord 16 0xFF45 = some (.push 255) := by decide
/-- V1, V2, V3. -/
theorem test_decode_illegal :
    [0x00, 0xFF, 0xA1].map (decodeTableWord 8) = [none, none, none] := by decide

/-! One step each: spec/95_test_vectors.md section 2. -/

/-- V1. -/
theorem test_illegal_zero : faultOf (stateAt 0 [] []) = some (.opcode 0, some 0, 0) := by decide
/-- V5, V7. -/
theorem test_fetch_254 : faultOf (stateAt 254 [0xA0] []) = some (.memoryIndex 256, none, 254) := by decide
/-- V12. -/
theorem test_ldi_sp : regAndPc 7 (stateAt 0 [0x82, 7, 0xFF] []) = some (255, 3) := by decide
/-- V13. -/
theorem test_ldi_bad_register :
    faultOf (stateAt 0 [0x82, 8, 1] []) = some (.registerIndex 8, some 0x82, 0) := by decide
/-- V8. -/
theorem test_prn : (after (stateAt 0 [0x47, 0, 0xEE] [(0, 7)])).map (fun t => (t.out, t.pc)) =
    some ([7], 2) := by decide
/-- V15. -/
theorem test_prn_bad_register : (after (stateAt 0 [0x47, 9] [])).map (fun t => (t.out, t.state)) =
    some ([], .faulted) := by decide
/-- V4. -/
theorem test_hlt_253 : (after (stateAt 253 [1] [])).map (fun t => (t.state, t.pc)) =
    some (.halted, 254) := by decide
/-- V21. -/
theorem test_mul_wraps : regAndPc 0 (stateAt 0 [0xA2, 0, 1] [(0, 255), (1, 255)]) = some (1, 3) := by decide
/-- V22, operands of distinct values. -/
theorem test_mul : regAndPc 0 (stateAt 0 [0xA2, 0, 1] [(0, 12), (1, 11)]) = some (132, 3) := by decide
/-- V17 (W2). -/
theorem test_add_wraps : regAndPc 0 (stateAt 0 [0xA0, 0, 1] [(0, 250), (1, 10)]) = some (4, 3) := by decide
/-- V25. -/
theorem test_add_checks_A_first :
    faultOf (stateAt 0 [0xA0, 8, 9] []) = some (.registerIndex 8, some 0xA0, 0) := by decide
/-- V51. -/
theorem test_push_sp : (after (stateAt 0 [0x45, 7] [(7, 0xF4)])).map
    (fun t => (t.x[7], Memory.read t.mem 0xF3, t.pc)) = some (0xF3, 0xF3, 2) := by decide
/-- V53. -/
theorem test_push_over_itself : (after (stateAt 0 [0x45, 0] [(0, 9), (7, 1)])).map
    (fun t => (t.x[7], Memory.read t.mem 0, t.pc)) = some (0, 9, 2) := by decide
/-- V58, with the popped byte placed by hand at 0xF3. -/
theorem test_pop_sp : regAndPc 7 ((fun s : State =>
    { s with mem := Memory.write s.mem 0xF3 0x80 }) (stateAt 0 [0x46, 7] [(7, 0xF3)])) =
    some (0x81, 2) := by decide
/-- V57. -/
theorem test_pop_at_255 :
    faultOf (stateAt 0 [0x46, 1] [(7, 255)]) = some (.stackValue 256, some 0x46, 0) := by decide
/-- V62. -/
theorem test_call_sp : (after (stateAt 0x10 [0x50, 7] [(7, 0xF4)])).map
    (fun t => (t.x[7], Memory.read t.mem 0xF3, t.pc)) = some (0xF3, 0x12, 0xF3) := by decide
/-- V63. -/
theorem test_call_at_zero :
    faultOf (stateAt 0x10 [0x50, 1] [(1, 0x40)]) = some (.stackValue (-1), some 0x50, 0x10) := by decide
/-- V64. -/
theorem test_ret : regAndPc 7 ((fun s : State =>
    { s with mem := Memory.write s.mem 0xF3 0x12 }) (stateAt 0x40 [0x11] [(7, 0xF3)])) =
    some (0xF4, 0x12) := by decide
/-- V65. -/
theorem test_ret_at_255 :
    faultOf (stateAt 0x40 [0x11] [(7, 255)]) = some (.stackValue 256, some 0x11, 0x40) := by decide
/-- V30. -/
theorem test_cmp_unsigned : (after (stateAt 0 [0xA7, 0, 1] [(1, 255)])).map (fun t => (t.fl, t.pc)) =
    some (⟨false, false, true⟩, 3) := by decide
/-- V27. -/
theorem test_cmp_greater : (after (stateAt 0 [0xA7, 0, 1] [(0, 5), (1, 3)])).map (·.fl) =
    some ⟨false, true, false⟩ := by decide
/-- V67. -/
theorem test_jmp : regAndPc 3 (stateAt 0 [0x54, 3] [(3, 254)]) = some (254, 254) := by decide
/-- V68. -/
theorem test_jeq_taken : regAndPc 2 ((stateAt 0 [0x55, 2] [(2, 0x30)]).writeFlags ⟨true, false, false⟩) =
    some (0x30, 0x30) := by decide
/-- V70. -/
theorem test_jeq_checks_untaken :
    faultOf (stateAt 0 [0x55, 8] []) = some (.registerIndex 8, some 0x55, 0) := by decide
/-- V73. -/
theorem test_jne_taken : regAndPc 2 ((stateAt 0 [0x56, 2] [(2, 0x30)]).writeFlags ⟨false, true, false⟩) =
    some (0x30, 0x30) := by decide
/-- V72. -/
theorem test_jne_untaken : regAndPc 2 ((stateAt 0 [0x56, 2] [(2, 0x30)]).writeFlags ⟨true, false, false⟩) =
    some (0x30, 2) := by decide
/-- V31. -/
theorem test_and : regAndPc 0 (stateAt 0 [0xA8, 0, 1] [(0, 0xF0), (1, 0x3C)]) = some (0x30, 3) := by decide
/-- V32. -/
theorem test_or : regAndPc 0 (stateAt 0 [0xAA, 0, 1] [(0, 0xF0), (1, 0x0F)]) = some (0xFF, 3) := by decide
/-- V33. -/
theorem test_xor : regAndPc 0 (stateAt 0 [0xAB, 0, 1] [(0, 0xFF), (1, 0x0F)]) = some (0xF0, 3) := by decide
/-- V39. -/
theorem test_shl_not_masked : regAndPc 0 (stateAt 0 [0xAC, 0, 1] [(0, 1), (1, 255)]) = some (0, 3) := by decide
/-- V40. -/
theorem test_shl_by_itself : regAndPc 0 (stateAt 0 [0xAC, 0, 0] [(0, 3)]) = some (24, 3) := by decide
/-- V42. -/
theorem test_shr_logical : regAndPc 0 (stateAt 0 [0xAD, 0, 1] [(0, 0x80), (1, 7)]) = some (1, 3) := by decide
/-- V43. -/
theorem test_shr_by_eight : regAndPc 0 (stateAt 0 [0xAD, 0, 1] [(0, 0xFF), (1, 8)]) = some (0, 3) := by decide
/-- V45. -/
theorem test_mod_smaller : regAndPc 0 (stateAt 0 [0xA4, 0, 1] [(0, 3), (1, 200)]) = some (3, 3) := by decide
/-- V46 (W6). -/
theorem test_mod_by_zero :
    faultOf (stateAt 0 [0xA4, 0, 1] [(0, 17)]) = some (.divisorRegister 1, some 0xA4, 0) := by decide
/-- V9. -/
theorem test_not_ignores_opB : regAndPc 2 (stateAt 0 [0x69, 2, 0xFF] [(2, 0x0F)]) = some (0xF0, 2) := by decide
/-- V77. -/
theorem test_halted_has_no_step : after { State.reset with state := .halted } = none := by decide
/-- R95: the record, offered before the instruction runs. -/
theorem test_trace : (after (stateAt 0 [0x47, 0, 0xEE] [(0, 7)])).map
    (fun t => t.trace.map fun r => (r.pc, r.op, r.opA, r.opB, r.x[0])) =
    some [(0, 0x47, 0, 0xEE, 7)] := by decide
/-- The host's loader of one word at the next fetch. -/
theorem test_withFetchWord :
    regAndPc 0 (State.reset.withFetchWord 24 0x080082) = some (8, 3) := by decide

/-! Loader, output and assembly. -/

/-- V79. -/
theorem test_load_line :
    loadLine [' ', '1', '0', '1', ' ', '#', ' ', 'f'] = .ok (some 5) := by decide
/-- V81. -/
theorem test_load_literal_above_255 : loadLine ['1', '0', '0', '0', '0', '0', '0', '0', '0'] =
    .error (.line ['1', '0', '0', '0', '0', '0', '0', '0', '0']) := by decide
/-- V83. -/
theorem test_load_prefix_refused : loadLine ['0', 'b', '1'] = .error (.line ['0', 'b', '1']) := by decide
/-- W7: the lines of the worked example, cut short, blank and comment lines between. -/
theorem test_load_skips : load (some ['#', 'p', '\n', '1', '0', '#', '\n', '\n', ' ', '1', '1', '\r', '\n']) =
    .ok [(0, 2), (1, 3)] := by decide
/-- W1. -/
theorem test_stdout : stdout [0, 255, 128, 8] =
    ['0', '\n', '2', '5', '5', '\n', '1', '2', '8', '\n', '8', '\n'] := by decide
/-- R95: two-digit uppercase hexadecimal. -/
theorem test_hex2 : [hex2 0xF3, hex2 9] = [['F', '3'], ['0', '9']] := by decide
/-- R95, worked by hand: twelve fields, here with a bar between the groups and a space within them. -/
theorem test_trace_text : TraceRecord.render
    { lead := ['>'], seps := #v[['|'], [' '], [' '], ['|'], [' '], [' '], [' '], [' '], [' '], [' '], [' ']]
      close := ['\n'] } ⟨3, 0x47, 0, 0xEE, State.reset.x⟩ =
    ['>', '0', '3', '|', '4', '7', ' ', '0', '0', ' ', 'E', 'E', '|', '0', '0', ' ', '0', '0', ' ', '0', '0',
     ' ', '0', '0', ' ', '0', '0', ' ', '0', '0', ' ', '0', '0', ' ', '0', '0', '\n'] := by decide
/-- R51, worked by hand from the widths of R43: the label stands at 3 + 1. -/
theorem test_assemble_label :
    assemble [['L', 'D', 'I', ' ', 'R', '2', ',', 'e', 'q'], ['H', 'L', 'T'],
      ['e', 'q', ':', ' ', 'J', 'E', 'Q', ' ', 'R', '2']] =
    some [0x82, 2, 4, 1, 0x55, 2] := by decide
/-- R51: prefixes. -/
theorem test_assemble_prefixes :
    [parseAsm [] ['L', 'D', 'I', ' ', 'R', '7', ',', '0', 'x', 'F', '4'],
     parseAsm [] ['L', 'D', 'I', ' ', 'R', '7', ',', '0', 'b', '1', '1']] =
    [some (.ldi 7 0xF4), some (.ldi 7 3)] := by decide

/-! Witnesses: for each statement with hypotheses, a state and operands that meet them all, at a boundary
value where the hypothesis has a range. -/

/-- A running state at pc 253 (the last a fetch succeeds at) with SP = 1 (the least a push succeeds at)
and R0 = 255. -/
def edge : State := stateAt 253 [0x45, 7, 9] [(7, 1), (0, 255)]

theorem edge_inv : edge.Inv := by decide

theorem witness_BootedStateMeetsInvariant :
    (∃ s, boot (some (fileImage [0x01])) = .ok s) ∧ (∃ mem, load (some (fileImage [0x01])) = .ok mem) ∧
      ∃ d, load none = .error d := ⟨⟨_, rfl⟩, ⟨_, rfl⟩, _, rfl⟩

theorem witness_StepKeepsInvariant :
    ∃ t, edge.Inv ∧ stepWith Config.opcodeMap edge = .next t := ⟨_, by decide, rfl⟩

theorem witness_ReachableStatesMeetInvariant : ∃ s, Reachable s := 
  ⟨_, some [], _, 1, rfl, _, rfl, rfl⟩

theorem witness_EngineStepsExactlyWhileRunning :
    edge.state = .running ∧ edge.halt.state = .halted ∧
      (edge.takeFault none .noSource).state = .faulted := by decide

theorem witness_RunEndsInExactlyOneOfThreeWays :
    (∃ s t, s.state = .running ∧ Finishes s t) ∧ ∃ s t, s.state = .running ∧ Fails s t :=
  ⟨⟨stateAt 253 [0x01] [], _, rfl, 1, ⟨_, rfl, rfl⟩, rfl⟩,
   ⟨State.reset, _, rfl, 1, ⟨_, rfl, rfl⟩, rfl⟩⟩

/-- Any RUNNING state at a JMP R0 to itself, R0 and pc both 0. -/
theorem self_jump_runs (n : Nat) : ∀ s : State, s.state = .running → s.pc = 0 →
    s.x = State.reset.x → s.mem = [(0, 0x54)] → ∃ t, RunsTo n s t ∧ t.state = .running := by
  induction n with
  | zero => exact fun s hs _ _ _ => ⟨s, rfl, hs⟩
  | succ n ih =>
    rintro ⟨mem, x, pc, fl, state, fault, out, op, opA, opB, trace⟩ hs hpc hx hm
    obtain rfl := hs
    obtain rfl := hpc
    obtain rfl := hx
    obtain rfl := hm
    obtain ⟨t, ht, hr⟩ := ih
      { mem := [(0, 0x54)], x := State.reset.x, pc := 0, fl := fl, state := .running, fault := fault
        out := out, op := 0x54, opA := 0, opB := 0
        trace := trace ++ [⟨0, 0x54, 0, 0, State.reset.x⟩] } rfl rfl rfl rfl
    exact ⟨t, ⟨_, rfl, ht⟩, hr⟩

/-- A state whose run never ends (R104). -/
theorem witness_RunEndsInExactlyOneOfThreeWays_hang :
    ∃ s, s.state = .running ∧ Hangs s :=
  ⟨stateAt 0 [0x54] [], rfl, fun n => self_jump_runs n _ rfl rfl rfl rfl⟩

theorem witness_OnlyHltHalts : ∃ m t, OpcodeMap.Valid m ∧
    stepWith m (stateAt 253 [0x01] []) = .next t ∧ t.state = .halted :=
  ⟨_, _, Config.opcodeMap_valid, rfl, rfl⟩

theorem witness_StepRunsDecodedInstruction : ∃ i op opA opB, edge.state = .running ∧
    edge.pc ≤ 253 ∧ op = Memory.read edge.mem edge.pc ∧
    opA = Memory.read edge.mem (edge.pc + 1) ∧ opB = Memory.read edge.mem (edge.pc + 2) ∧
    decode op opA opB = .ok i :=
  ⟨_, _, _, _, rfl, by decide, rfl, rfl, rfl, rfl⟩

theorem witness_FetchFaultsBeyond253 : ∀ pc ∈ [254, 255, 256],
    (stateAt pc [] []).state = .running ∧ 253 < (stateAt pc [] []).pc := by decide

theorem witness_IllegalOpcodeEndsTheRun : (stateAt 253 [0xFF] []).state = .running ∧
    (stateAt 253 [0xFF] []).pc ≤ 253 ∧
    ∀ k, Config.opcodeMap k ≠ Memory.read (stateAt 253 [0xFF] []).mem 253 :=
  ⟨rfl, by decide, fun k => by cases k <;> decide⟩

theorem witness_FaultsArePrecise : ∀ s ∈ [stateAt 253 [] [], stateAt 254 [] []],
    (after s).map (·.state) = some .faulted := by decide

/-- One state for each clause: fetch, dispatch, register A, register B, the four own faults. -/
theorem witness_FaultsComeInPriorityOrder :
    ∀ s ∈ [stateAt 254 [] [], stateAt 253 [] [], stateAt 0 [0xA4, 8, 9] [], stateAt 0 [0xA4, 7, 8] [],
      stateAt 0 [0xA4, 0, 7] [], stateAt 0 [0x45, 7] [], stateAt 0 [0x46, 0] [(7, 255)],
      stateAt 0 [0x11] [(7, 255)]],
    (after s).map (fun t => (t.state, t.fault.isSome)) = some (.faulted, true) := by decide

theorem witness_RegisterIndexAboveSevenFaults :
    (∃ b ∈ (Instr.add 7 8).registerBytes, 7 < b.toNat) ∧ (7 : Byte).toNat ≤ 7 ∧
      7 < (8 : Byte).toNat := by decide

theorem witness_UnsupportedOperationNeverRaised :
    (after State.reset).map (fun t => (t.state, t.fault.isSome)) = some (.faulted, true) := by decide

theorem witness_StreamDecodeInvertsEncode : ∃ m, OpcodeMap.Valid m := ⟨_, Config.opcodeMap_valid⟩

theorem witness_EngineDecodeIgnoresForeignBytes : ∃ m, OpcodeMap.Valid m ∧
    encodeWith m .hlt ++ [255, 255] = [0x01, 255, 255] ∧
    encodeWith m (.prn 7) ++ [255] = [0x47, 7, 255] ∧
    encodeWith m (.ldi 7 255) ++ [] = [0x82, 7, 255] :=
  ⟨_, Config.opcodeMap_valid, rfl, rfl, rfl⟩

theorem witness_EncodeInvertsStreamDecode :
    decodeBytesWith Config.opcodeMap [0x47, 255, 9] = .ok (.prn 255, [9]) := by decide

theorem witness_MemoryReadsLatestWrite : edge.mem.wf = true ∧ 255 ≤ 255 := by decide

theorem witness_OutOfRangeMemoryAccessRaises : 255 < 256 ∧
    faultOf (stateAt 254 [] []) = some (.memoryIndex 256, none, 254) := by decide

theorem witness_StoreIsSeenByTheNextFetch : ∃ t u b c : _, edge.mem.wf = true ∧
    (7 : Byte).toNat = (7 : RegIndex).val ∧ edge.x[7] ≠ 0#8 ∧ edge.pc ≤ 253 ∧
    exec (.push 7) { edge with pc := 251 } = .next t ∧ fetch t = .ok b ∧
    exec (.call 7) edge = .next u ∧ fetch u = .ok c :=
  ⟨_, _, _, _, by decide, rfl, by decide, by decide, rfl, rfl, rfl, rfl⟩

/-- Operand bytes at the ends of both ranges: LDI, PRN. -/
theorem witness_LdiLoadsImmediate :
    (7 : Byte).toNat = (7 : RegIndex).val ∧ 7 < (8 : Byte).toNat := by decide
theorem witness_PrnAppendsRegister :
    (0 : Byte).toNat = (0 : RegIndex).val ∧ 7 < (255 : Byte).toNat := by decide
theorem witness_HltHaltsForGood : ∀ pc ∈ [254, 255],
    (stateAt pc [0x01] []).state = .running ∧ (stateAt pc [0x01] []).pc = pc := by decide
theorem witness_AddWrapsModulo256 :
    (7 : Byte).toNat = (7 : RegIndex).val ∧ (0 : Byte).toNat = (0 : RegIndex).val := by decide
theorem witness_MulKeepsLowByte :
    (7 : Byte).toNat = (7 : RegIndex).val ∧ (0 : Byte).toNat = (0 : RegIndex).val := by decide
theorem witness_BitwiseResults :
    (7 : Byte).toNat = (7 : RegIndex).val ∧ (0 : Byte).toNat = (0 : RegIndex).val := by decide
theorem witness_CmpSetsExactlyOneFlag :
    (7 : Byte).toNat = (7 : RegIndex).val ∧ (0 : Byte).toNat = (0 : RegIndex).val := by decide
theorem witness_ShlIsNotMasked : (7 : Byte).toNat = (7 : RegIndex).val ∧
    (0 : Byte).toNat = (0 : RegIndex).val ∧ 8 ≤ ((stateAt 0 [] [(0, 8)]).x[(0 : RegIndex)]).toNat := by decide
theorem witness_ShrIsLogicalAndNotMasked : (7 : Byte).toNat = (7 : RegIndex).val ∧
    (0 : Byte).toNat = (0 : RegIndex).val ∧ 8 ≤ ((stateAt 0 [] [(0, 8)]).x[(0 : RegIndex)]).toNat := by decide
theorem witness_ModIsTheRemainder : (7 : Byte).toNat = (7 : RegIndex).val ∧
    (0 : Byte).toNat = (0 : RegIndex).val ∧ edge.x[(0 : RegIndex)] ≠ 0#8 := by decide
theorem witness_ModByZeroIsFatal : (0 : Byte).toNat = (0 : RegIndex).val ∧
    (1 : Byte).toNat = (1 : RegIndex).val ∧ edge.x[(1 : RegIndex)] = 0#8 := by decide
theorem witness_NotComplementsInPlace : (7 : Byte).toNat = (7 : RegIndex).val := by decide

theorem witness_AluWritesOnlyItsResult : (∃ t, aluApply .cmp 0 7 edge = .ok t) ∧
    (∃ t, aluApply .add 0 7 edge = .ok t) ∧ edge.x[(7 : RegIndex)] ≠ 0#8 :=
  ⟨⟨_, rfl⟩, ⟨_, rfl⟩, by decide⟩

theorem witness_PushStoresBelowTheStackPointer : (7 : Byte).toNat = (7 : RegIndex).val ∧
    edge.x[7] ≠ 0#8 ∧ edge.mem.wf = true := by decide
theorem witness_PushPopRoundTrip : (0 : Byte).toNat = (0 : RegIndex).val ∧
    edge.x[7] ≠ 0#8 ∧ edge.mem.wf = true := by decide
theorem witness_CallPushesTheReturnAddress : (7 : Byte).toNat = (7 : RegIndex).val ∧
    edge.x[7] ≠ 0#8 ∧ edge.mem.wf = true ∧ edge.pc ≤ 253 := by decide

/-- R7 with a popped byte of 254, another register with SP = 254. -/
theorem witness_PopLoadsFromTheStackPointer :
    (∃ v base : Byte, (7 : Byte).toNat = (7 : RegIndex).val ∧
      v = Memory.read (stateAt 0 [254] []).mem ((stateAt 0 [254] []).x[7]).toNat ∧
      base = v ∧ base ≠ 255#8) ∧
    ∃ v base : Byte, (0 : Byte).toNat = (0 : RegIndex).val ∧
      v = Memory.read (stateAt 0 [] [(7, 254)]).mem ((stateAt 0 [] [(7, 254)]).x[7]).toNat ∧
      base = (stateAt 0 [] [(7, 254)]).x[7] ∧ base ≠ 255#8 :=
  ⟨⟨_, _, rfl, rfl, rfl, by decide⟩, ⟨_, _, rfl, rfl, rfl, by decide⟩⟩

/-- SP = 0; SP = 255; and for POP R7 a popped byte of 255. -/
theorem witness_StackPointerNeverWraps : State.reset.x[7] = 0#8 ∧
    (stateAt 0 [] [(7, 255)]).x[7] = 255#8 ∧
    Memory.read (stateAt 0 [255] []).mem ((stateAt 0 [255] []).x[7]).toNat = 255#8 := by decide

theorem witness_RetPopsTheProgramCounter : (stateAt 0 [] [(7, 254)]).x[7] ≠ 255#8 := by decide

/-- A later state that still has SP and the byte there as the CALL left them. -/
theorem witness_CallThenRetReturns : (0 : Byte).toNat = (0 : RegIndex).val ∧ edge.x[7] ≠ 0#8 ∧
    edge.mem.wf = true ∧ edge.pc ≤ 253 ∧
    ∃ t u : State, exec (.call 0) edge = .next t ∧ u.pc = 9 ∧ u.x[7] = t.x[7] ∧
      Memory.read u.mem (t.x[7]).toNat = Memory.read t.mem (t.x[7]).toNat :=
  ⟨rfl, by decide, by decide, by decide, _, { edge with
    pc := 9, x := edge.x.set 7 0, mem := Memory.write edge.mem 0 255 }, rfl, rfl, rfl, rfl⟩

theorem witness_JmpJumpsToTheRegister : (7 : Byte).toNat = (7 : RegIndex).val := by decide
theorem witness_JeqAndJneTestEqualBit : (7 : Byte).toNat = (7 : RegIndex).val ∧
    (edge.writeFlags ⟨true, false, false⟩).fl.e = true ∧ edge.fl.e = false := by decide

theorem witness_HandlersWriteOnlyTheirRegisters :
    (∃ t, exec (.add 0 7) edge = .next t) ∧ writesReg (.add 0 7) 7 = false ∧
    ∃ t, exec (.add 8 7) edge = .next t ∧ edge.state ≠ .faulted ∧ t.state = .faulted :=
  ⟨⟨_, rfl⟩, by decide, _, rfl, by decide, rfl⟩

theorem witness_OnlyCmpWritesAndOnlyBranchesReadFlags :
    (∃ t, exec (.cmp 0 7) edge = .next t) ∧
    (∃ t, exec (.cmp 0 8) edge = .next t ∧ edge.state ≠ .faulted ∧ t.state = .faulted) ∧
    (∃ t, exec (.jeq 0) edge = .next t ∧ (⟨false, true, false⟩ : FlagReg).e = edge.fl.e) ∧
    ∀ s ∈ [stateAt 254 [] [], stateAt 253 [] []],
      ∃ t, stepWith Config.opcodeMap s = .next t ∧ t.state = .faulted :=
  ⟨⟨_, rfl⟩, ⟨_, rfl, by decide, rfl⟩, ⟨_, rfl, rfl⟩, by
    simp only [List.forall_mem_cons]
    exact ⟨⟨_, rfl, rfl⟩, ⟨_, rfl, rfl⟩, by simp⟩⟩

theorem witness_OnlyFetchAndStackReachMemory :
    (∀ k, k < 3 → Memory.read edge.mem (edge.pc + k) = Memory.read edge.mem (edge.pc + k)) ∧
    edge.mem.wf = true ∧ (∃ t, exec (.push 0) edge = .next t) ∧
    (∃ t, exec (.call 7) edge = .next t) ∧ (∃ t, exec (.pop 0) edge = .next t) ∧
    Memory.read [(9, 9)] (edge.x[7]).toNat = Memory.read edge.mem (edge.x[7]).toNat ∧
    (7 : Byte).toNat ≤ 7 ∧ edge.x[7] ≠ 0#8 ∧ Memory.wf [(9, 9)] = true :=
  ⟨fun _ _ => rfl, by decide, ⟨_, rfl⟩, ⟨_, rfl⟩, ⟨_, rfl⟩, by decide⟩

theorem witness_OutputGrowsByPrnAlone : ∃ t, exec (.prn 0) edge = .next t := ⟨_, rfl⟩
theorem witness_HandlersKeepLatchesAndEngineState :
    (∃ t, exec (.ldi 0 9) edge = .next t) ∧ (∃ t, exec .hlt edge = .next t) ∧
    ∃ t, exec (.prn 8) edge = .next t := ⟨⟨_, rfl⟩, ⟨_, rfl⟩, _, rfl⟩
theorem witness_LatchesAndTraceAreNeverRead : ∃ t, stepWith Config.opcodeMap edge = .next t :=
  ⟨_, rfl⟩
theorem witness_TraceRecordsEachFetch : (∃ t, stepWith Config.opcodeMap edge = .next t) ∧
    ∃ t, stepWith Config.opcodeMap (stateAt 254 [] []) = .next t := ⟨⟨_, rfl⟩, _, rfl⟩
theorem witness_LdiThenPrnPrintsTheDecimalString : (7 : Byte).toNat < 8 := by decide
theorem witness_ExitStatusIsZeroExactlyAfterHalt : edge.halt.state = .halted ∧
    (edge.takeFault none .noSource).state = .faulted ∧ edge.state = .running := by decide
theorem witness_LoadStoresBytesFromZero : (List.replicate 256 (1 : Byte)).length ≤ 256 ∧
    256 < (List.replicate 257 (1 : Byte)).length := by
  rw [List.length_replicate, List.length_replicate]; decide

/-- A whitespace line, a comment line after whitespace, and a comment line at once. -/
theorem witness_LoaderSkipsIneffectiveLines : ∃ blank : List Char,
    (∀ c ∈ blank, c = ' ' ∨ c = '\t' ∨ c = '\r' ∨ c = '\n') ∧
    (∀ line ∈ [blank, blank ++ ['#', '1']], line = blank ∨ ∃ comment, line = blank ++ '#' :: comment) ∧
    ['#', '1'] = ([] : List Char) ++ '#' :: ['1'] :=
  ⟨[' ', '\t'], by simp, by simp, rfl⟩

/-- The hypotheses of `LineIsReadByItsLiteral` on a text, spaces before it and none after. -/
def LiteralText (text : List Char) : Prop :=
  (∀ c ∈ [' '] ++ ([] : List Char), c = ' ' ∨ c = '\t' ∨ c = '\r' ∨ c = '\n') ∧
  text ≠ [] ∧ (∀ c ∈ text, c ≠ '#') ∧
  ∀ c, text.head? = some c ∨ text.getLast? = some c → c ≠ ' ' ∧ c ≠ '\t' ∧ c ≠ '\r' ∧ c ≠ '\n'

/-- Literals of value 255 and 256, the two sides of the bound. -/
theorem witness_LineIsReadByItsLiteral : ∀ text ∈ [List.replicate 8 '1', '1' :: List.replicate 8 '0'],
    LiteralText text ∧ (∀ c ∈ text, c = '0' ∨ c = '1') ∧
    Nat.ofDigits 2 (text.reverse.map fun c => if c = '1' then 1 else 0) ∈ [255, 256] := by
  simp [LiteralText, List.replicate]
  refine ⟨.inl (by decide), ?_, .inr (by decide)⟩
  rintro c (rfl | rfl) <;> simp

/-- A text with another digit, and one with whitespace between two digits. -/
theorem witness_LineIsReadByItsLiteral_refused : ∀ text ∈ [['1', '2'], ['1', ' ', '0']],
    LiteralText text ∧ ∃ c ∈ text, c ≠ '0' ∧ c ≠ '1' := by
  simp [LiteralText]
  constructor <;> rintro c (rfl | rfl) <;> simp

/-- With a comment and with none. -/
theorem witness_LineIsReadByItsLiteral_tail : ∀ tail ∈ [([] : List Char), ['#', 'x']],
    tail = [] ∨ ∃ comment, tail = '#' :: comment := by simp

theorem witness_LoadFailsInThreeWays :
    load (some ['2']) = .error (.line ['2']) := by decide

theorem witness_AssemblyTextParsesBack : (Instr.ldi 7 255).wellFormed = true := by decide

end Sys2Proof.Tests
end

namespace Sys2Proof.Machine

/-! What an instruction can do, said once: its effect, or the one fault it raises. -/

/-- The register operand byte that R11 refuses: the first above 7, A before B (R86). -/
def badRegister (i : Instr) : Option Byte := i.registerBytes.find? fun b => decide (7 < b.toNat)

/-- The faults a handler raises from `s` (R86): a register operand's, or, where it has none, its own. -/
inductive Raised (i : Instr) (s : State) : FaultDetail → Prop where
  | register {b : Byte} (hreg : badRegister i = some b) : Raised i s (.registerIndex b)
  | stackLow {a : Byte} (hreg : badRegister i = none) (hi : i = .push a ∨ i = .call a)
      (hsp : s.sp = 0#8) : Raised i s (.stackValue (-1))
  | stackHigh (hreg : badRegister i = none) (hi : (∃ a, i = .pop a) ∨ i = .ret) :
      Raised i s (.stackValue 256)
  | divisor {a b : Byte} {q : RegIndex} (hreg : badRegister i = none) (hi : i = .mod a b)
      (hb : b.toNat = q.val) (hq : s.readReg q = 0#8) : Raised i s (.divisorRegister q)

/-- What an instruction that raises no fault does to each part of the state. A field that is left out
where an effect is shown is a part the instruction leaves alone. -/
structure Effect (i : Instr) (s t : State) : Prop where
  mem : t.mem = s.mem ∨ ∃ a v : Byte, t.mem = Memory.write s.mem a.toNat v := by exact .inl rfl
  x : ∀ r : RegIndex, writesReg i r = false → t.x[r] = s.x[r] := by exact fun _ _ => rfl
  pc : t.pc ≤ s.pc + 3 ∨ t.pc < 256
  fl : t.fl = s.fl ∨ ∃ a b v w, i = .cmp a b ∧ t.fl = cmpFlags v w := by exact .inl rfl
  out : t.out = s.out ∨ ∃ (a : Byte) (r : RegIndex),
    i = .prn a ∧ a.toNat = r.val ∧ t.out = s.out ++ [s.x[r]] := by exact .inl rfl
  state : t.state = if i = .hlt then .halted else s.state
  fault : t.fault = s.fault := by rfl
  op : t.op = s.op := by rfl
  opA : t.opA = s.opA := by rfl
  opB : t.opB = s.opB := by rfl
  trace : t.trace = s.trace := by rfl

/-- What a handler answers from `s`: its effect, or `s` with the fault it raised taken (R88). -/
inductive Answer (i : Instr) (s : State) : State → Prop where
  | effect {t : State} (hreg : badRegister i = none) (he : Effect i s t) : Answer i s t
  | fault {d : FaultDetail} (hd : Raised i s d) : Answer i s (s.takeFault (some s.op) d)

/-! The shapes of an effect. -/

theorem set_getElem_of_not_written {x : RegFile} {d r : RegIndex} {v : Byte} {i : Instr}
    (hd : writesReg i d = true) (hr : writesReg i r = false) : (x.set d v)[r] = x[r] := by
  have hne : d.val ≠ r.val := fun e => by simp [← Fin.ext e, hd] at hr
  simp [hne]

theorem Effect.writeReg_advance {i : Instr} {s : State} {d : RegIndex} {v : Byte} {n : Nat}
    (hd : writesReg i d = true) (hi : i ≠ .hlt) (hn : n ≤ 3) :
    Effect i s ((s.writeReg d v).advance n) where
  x _ hr := set_getElem_of_not_written hd hr
  pc := .inl (Nat.add_le_add_left hn _)
  state := (if_neg hi).symm

theorem Effect.advance {i : Instr} {s : State} {n : Nat} (hi : i ≠ .hlt) (hn : n ≤ 3) :
    Effect i s (s.advance n) where
  pc := .inl (Nat.add_le_add_left hn _)
  state := (if_neg hi).symm

theorem Effect.jump {i : Instr} {s : State} {v : Byte} (hi : i ≠ .hlt) : Effect i s (s.jump v) where
  pc := .inr v.isLt
  state := (if_neg hi).symm

theorem Effect.hlt {s : State} : Effect .hlt s (s.halt.advance 1) where
  pc := .inl (by simp)
  state := rfl

theorem Effect.prn {a : Byte} {r : RegIndex} {s : State} (ha : a.toNat = r.val) :
    Effect (.prn a) s ((s.emit (s.readReg r)).advance 2) where
  pc := .inl (by simp)
  out := .inr ⟨a, r, rfl, ha, rfl⟩
  state := rfl

theorem Effect.cmp {a b v w : Byte} {s : State} :
    Effect (.cmp a b) s ((s.writeFlags (cmpFlags v w)).advance 3) where
  pc := .inl le_rfl
  fl := .inr ⟨a, b, v, w, rfl, rfl⟩
  state := rfl

/-- PUSH and CALL: SP moves and a byte is stored. -/
theorem Effect.store {i : Instr} {s : State} {sp a v : Byte} {n : Nat}
    (hd : writesReg i spIndex = true) (hi : i ≠ .hlt) (hn : n ≤ s.pc + 3 ∨ n < 256) :
    Effect i s { s.writeReg spIndex sp with mem := Memory.write s.mem a.toNat v, pc := n } where
  mem := .inr ⟨a, v, rfl⟩
  x _ hr := set_getElem_of_not_written hd hr
  pc := hn
  state := (if_neg hi).symm

theorem Effect.pop {a v w : Byte} {r : RegIndex} {s : State} (ha : a.toNat = r.val) :
    Effect (.pop a) s (((s.writeReg r v).writeReg spIndex w).advance 2) where
  x q hq := by
    have hr : writesReg (.pop a) r = true := by simp [writesReg, ha]
    have hsp : writesReg (.pop a) spIndex = true := by simp [writesReg, spIndex]
    exact (set_getElem_of_not_written hsp hq).trans (set_getElem_of_not_written hr hq)
  pc := .inl (by simp)
  state := rfl

theorem Effect.ret {v w : Byte} {s : State} :
    Effect .ret s ((s.writeReg spIndex w).jump v) where
  x _ hr := set_getElem_of_not_written (d := spIndex) rfl hr
  pc := .inr v.isLt
  state := rfl

/-! Register operands. -/

theorem badRegister_one {i : Instr} {a : Byte} {r : RegIndex} (hi : i.registerBytes = [a])
    (ha : a.toNat = r.val) : badRegister i = none := by
  simp [badRegister, hi]; omega

theorem badRegister_two {i : Instr} {a b : Byte} {r q : RegIndex} (hi : i.registerBytes = [a, b])
    (ha : a.toNat = r.val) (hb : b.toNat = q.val) : badRegister i = none := by
  simp [badRegister, hi]; omega

theorem badRegister_first {i : Instr} {a : Byte} {l : List Byte} (hi : i.registerBytes = a :: l)
    (ha : 8 ≤ a.toNat) : badRegister i = some a := by
  simp [badRegister, hi]; omega

theorem badRegister_second {i : Instr} {a b : Byte} {r : RegIndex} (hi : i.registerBytes = [a, b])
    (ha : a.toNat = r.val) (hb : 8 ≤ b.toNat) : badRegister i = some b := by
  simp [badRegister, hi]; omega

/-! Each handler. -/

/-- A handler of one register operand and no fault of its own. -/
theorem Answer.oneRegister {i : Instr} {a : Byte} {s t : State} {e : RegIndex → State}
    (hi : i.registerBytes = [a]) (he : ∀ r : RegIndex, a.toNat = r.val → Effect i s (e r))
    (h : (∃ r : RegIndex, a.toNat = r.val ∧ t = e r) ∨
      (8 ≤ a.toNat ∧ t = s.takeFault (some s.op) (.registerIndex a))) : Answer i s t := by
  obtain ⟨r, ha, rfl⟩ | ⟨ha, rfl⟩ := h
  · exact .effect (badRegister_one hi ha) (he r ha)
  · exact .fault (.register (badRegister_first hi ha))

/-- The RR instruction that calls the ALU with an operation; none for NOT and for an unknown name. -/
def AluOp.rrInstr : AluOp → Byte → Byte → Option Instr
  | .add, a, b => some (.add a b)
  | .mul, a, b => some (.mul a b)
  | .cmp, a, b => some (.cmp a b)
  | .and, a, b => some (.and a b)
  | .or, a, b => some (.or a b)
  | .xor, a, b => some (.xor a b)
  | .shl, a, b => some (.shl a b)
  | .shr, a, b => some (.shr a b)
  | .mod, a, b => some (.mod a b)
  | .not, _, _ | .other _, _, _ => none

theorem AluOp.registerBytes_of_rrInstr {operation : AluOp} {a b : Byte} {i : Instr}
    (hi : operation.rrInstr a b = some i) : i.registerBytes = [a, b] := by
  cases operation <;> simp [AluOp.rrInstr] at hi <;> subst hi <;> rfl

theorem AluOp.ne_hlt_of_rrInstr {operation : AluOp} {a b : Byte} {i : Instr}
    (hi : operation.rrInstr a b = some i) : i ≠ .hlt := by
  rintro rfl
  cases operation <;> simp [AluOp.rrInstr] at hi

/-- An RR instruction with a result writes it to register A. -/
theorem AluOp.writesReg_of_rrInstr {operation : AluOp} {a b v w y : Byte} {i : Instr} {d : RegIndex}
    (hi : operation.rrInstr a b = some i) (hv : operation.value v w = some y)
    (hd : a.toNat = d.val) : writesReg i d = true := by
  cases operation <;> simp [AluOp.rrInstr, AluOp.value] at hi hv <;> subst hi <;>
    simp [writesReg, hd]

theorem aluRR_answer {operation : AluOp} {a b : Byte} {i : Instr} {s t : State}
    (hi : operation.rrInstr a b = some i) (h : aluRR operation a b s = .next t) : Answer i s t := by
  have hbytes := AluOp.registerBytes_of_rrInstr hi
  obtain ⟨d, src, u, hd, hs, hu, rfl⟩ | ⟨e, rfl, ⟨ha, rfl⟩ | ⟨d, hd, hb, rfl⟩ | ⟨d, src, hd, hs, he⟩⟩ :=
    aluRR_next.mp h
  · refine .effect (badRegister_two hbytes hd hs) ?_
    obtain ⟨rfl, rfl⟩ | ⟨-, v, hv, rfl⟩ := aluApply_ok.mp hu
    · obtain rfl : Instr.cmp a b = i := Option.some.inj hi
      exact .cmp
    · exact .writeReg_advance (AluOp.writesReg_of_rrInstr hi hv hd) (AluOp.ne_hlt_of_rrInstr hi) le_rfl
  · exact .fault (.register (badRegister_first hbytes ha))
  · exact .fault (.register (badRegister_second hbytes hd hb))
  · obtain ⟨rfl, hq, rfl⟩ | ⟨name, rfl, -⟩ := aluApply_error.mp he
    · obtain rfl : Instr.mod a b = i := Option.some.inj hi
      exact .fault (.divisor (badRegister_two hbytes hd hs) rfl hs hq)
    · cases hi

theorem execPush_answer {a : Byte} {s t : State} (h : execPush a s = .next t) :
    Answer (.push a) s t := by
  obtain ⟨r, u, ha, -, rfl, rfl⟩ | ⟨d, rfl, ⟨ha, rfl⟩ | ⟨ha, hsp, rfl⟩⟩ := execPush_next.mp h
  · exact .effect (badRegister_one rfl ha) (.store rfl nofun (.inl (by simp)))
  · exact .fault (.register (badRegister_first rfl ha))
  · exact .fault (.stackLow (badRegister_one (r := ⟨_, ha⟩) rfl rfl) (.inl rfl) hsp)

theorem execCall_answer {a : Byte} {s t : State} (h : execCall a s = .next t) :
    Answer (.call a) s t := by
  obtain ⟨r, u, ha, -, rfl, rfl⟩ | ⟨d, rfl, ⟨ha, rfl⟩ | ⟨ha, hsp, rfl⟩⟩ := execCall_next.mp h
  · exact .effect (badRegister_one rfl ha) (.store rfl nofun (.inr (BitVec.isLt _)))
  · exact .fault (.register (badRegister_first rfl ha))
  · exact .fault (.stackLow (badRegister_one (r := ⟨_, ha⟩) rfl rfl) (.inr rfl) hsp)

theorem execPop_answer {a : Byte} {s t : State} (h : execPop a s = .next t) :
    Answer (.pop a) s t := by
  obtain ⟨r, u, ha, rfl, -, rfl⟩ | ⟨d, rfl, ⟨ha, rfl⟩ | ⟨r, ha, -, rfl⟩⟩ := execPop_next.mp h
  · exact .effect (badRegister_one rfl ha) (.pop ha)
  · exact .fault (.register (badRegister_first rfl ha))
  · exact .fault (.stackHigh (badRegister_one rfl ha) (.inl ⟨a, rfl⟩))

theorem execRet_answer {s t : State} (h : execRet s = .next t) : Answer .ret s t := by
  obtain ⟨-, rfl⟩ | ⟨-, rfl⟩ := execRet_next.mp h
  · exact .effect rfl .ret
  · exact .fault (.stackHigh rfl (.inr rfl))

/-- JEQ and JNE: either pc moves on by 2 or it is the register, by a test `c`. -/
theorem Effect.branch {i : Instr} {s : State} {v : Byte} {c : Prop} [Decidable c] (hi : i ≠ .hlt) :
    Effect i s (if c then s.jump v else s.advance 2) := by
  split
  · exact .jump hi
  · exact .advance hi (by decide)

/-- Everything a handler can answer. -/
theorem exec_answer {i : Instr} {s t : State} (h : exec i s = .next t) : Answer i s t := by
  cases i with
  | ldi a imm =>
    exact .oneRegister rfl (fun r ha => .writeReg_advance (by simp [writesReg, ha]) nofun le_rfl)
      (execLdi_next.mp h)
  | not a =>
    exact .oneRegister rfl (fun r ha => .writeReg_advance (by simp [writesReg, ha]) nofun (by decide))
      (execNot_next.mp h)
  | prn a => exact .oneRegister rfl (fun r ha => .prn ha) (execPrn_next.mp h)
  | jmp a => exact .oneRegister rfl (fun r _ => .jump nofun) (execJmp_next.mp h)
  | jeq a => exact .oneRegister rfl (fun r _ => .branch nofun) (execJeq_next.mp h)
  | jne a =>
    refine .oneRegister rfl (fun r _ => ?_) (execJne_next.mp h)
    rw [← ite_not]
    exact .branch nofun
  | hlt => exact execHlt_next.mp h ▸ .effect rfl .hlt
  | push a => exact execPush_answer h
  | pop a => exact execPop_answer h
  | call a => exact execCall_answer h
  | ret => exact execRet_answer h
  | add a b | mul a b | cmp a b | and a b | or a b | xor a b | shl a b | shr a b | mod a b =>
    exact aluRR_answer rfl h

/-! What a relation between states must keep for an instruction to keep it. -/

/-- Two answers of an operation are related: the same fault, or states related by `R`. -/
inductive RaisesRel (R : State → State → Prop) : Raises State → Raises State → Prop where
  | ok {t u : State} (h : R t u) : RaisesRel R (.ok t) (.ok u)
  | error (d : FaultDetail) : RaisesRel R (.error d) (.error d)

/-- Related states agree in what every handler may read (registers, pc and the latched opcode), and
every operation on the state keeps them related. -/
structure Congruence (R : State → State → Prop) : Prop where
  x {s s' : State} : R s s' → s'.x = s.x
  pc {s s' : State} : R s s' → s'.pc = s.pc
  op {s s' : State} : R s s' → s'.op = s.op
  writeReg {s s' : State} (r : RegIndex) (v : Byte) : R s s' → R (s.writeReg r v) (s'.writeReg r v)
  store {s s' : State} (a : Nat) (v : Byte) : R s s' →
    R { s with mem := Memory.write s.mem a v } { s' with mem := Memory.write s'.mem a v }
  writeFlags {s s' : State} (f : FlagReg) : R s s' → R (s.writeFlags f) (s'.writeFlags f)
  advance {s s' : State} (n : Nat) : R s s' → R (s.advance n) (s'.advance n)
  jump {s s' : State} (v : Byte) : R s s' → R (s.jump v) (s'.jump v)
  emit {s s' : State} (v : Byte) : R s s' → R (s.emit v) (s'.emit v)
  halt {s s' : State} : R s s' → R s.halt s'.halt
  takeFault {s s' : State} (o : Option Byte) (d : FaultDetail) : R s s' →
    R (s.takeFault o d) (s'.takeFault o d)

namespace RaisesRel

variable {R : State → State → Prop}

/-- The same value first, then related answers. -/
theorem bindValue {α : Type} {x : Raises α} {f g : α → Raises State}
    (h : ∀ a, RaisesRel R (f a) (g a)) : RaisesRel R (x >>= f) (x >>= g) := by
  cases x with
  | ok a => exact h a
  | error d => exact .error d

/-- Related answers first, then a continuation that keeps them related. -/
theorem bind {x y : Raises State} {f g : State → Raises State} (hxy : RaisesRel R x y)
    (h : ∀ t u, R t u → RaisesRel R (f t) (g u)) : RaisesRel R (x >>= f) (y >>= g) := by
  cases hxy with
  | ok hr => exact h _ _ hr
  | error d => exact .error d

end RaisesRel

namespace Congruence

variable {R : State → State → Prop} {s s' t : State}

theorem readReg (hR : Congruence R) (h : R s s') (r : RegIndex) : s'.readReg r = s.readReg r :=
  congrArg (·[r]) (hR.x h)

theorem sp (hR : Congruence R) (h : R s s') : s'.sp = s.sp := hR.readReg h spIndex

theorem spDown (hR : Congruence R) (h : R s s') : RaisesRel R s.spDown s'.spDown := by
  unfold State.spDown
  rw [hR.sp h]
  split
  · exact .error _
  · exact .ok (hR.writeReg _ _ h)

theorem spUp (hR : Congruence R) (h : R s s') : RaisesRel R s.spUp s'.spUp := by
  unfold State.spUp
  rw [hR.sp h]
  split
  · exact .error _
  · exact .ok (hR.writeReg _ _ h)

theorem memWrite (hR : Congruence R) (h : R s s') (a : Nat) (v : Byte) :
    RaisesRel R (s.memWrite a v) (s'.memWrite a v) := by
  unfold State.memWrite
  split
  · exact .ok (hR.store a v h)
  · exact .error _

theorem aluApply (hR : Congruence R) (h : R s s') (operation : AluOp) (d src : RegIndex) :
    RaisesRel R (aluApply operation d src s) (aluApply operation d src s') := by
  unfold Machine.aluApply
  rw [hR.readReg h, hR.readReg h]
  cases operation with
  | cmp => exact .ok (hR.writeFlags _ h)
  | other name => exact .error _
  | mod =>
    dsimp only
    split
    · exact .error _
    · exact .ok (hR.writeReg _ _ h)
  | _ => exact .ok (hR.writeReg _ _ h)

/-- Related computations of a handler answer related states. -/
theorem deliver (hR : Congruence R) (h : R s s') {x y : Raises State} (hxy : RaisesRel R x y)
    (ht : deliver s x = .next t) : ∃ u, Machine.deliver s' y = .next u ∧ R t u := by
  cases hxy with
  | ok hr => exact ⟨_, rfl, Host.Outcome.next.inj ht ▸ hr⟩
  | error d =>
    refine ⟨_, rfl, Host.Outcome.next.inj ht ▸ ?_⟩
    rw [hR.op h]
    exact hR.takeFault _ d h

theorem aluRR (hR : Congruence R) (h : R s s') {operation : AluOp} {a b : Byte}
    (ht : aluRR operation a b s = .next t) :
    ∃ u, Machine.aluRR operation a b s' = .next u ∧ R t u :=
  hR.deliver h (.bindValue fun d => .bindValue fun src =>
    (hR.aluApply h operation d src).bind fun _ _ h' => .ok (hR.advance 3 h')) ht

/-- From related states that agree in FL.E where the instruction is a branch, and in the byte at SP
where it pops one, an instruction answers related states. -/
theorem exec (hR : Congruence R) (h : R s s') {i : Instr}
    (he : (∃ a, i = .jeq a ∨ i = .jne a) → s'.fl.e = s.fl.e)
    (hm : ((∃ a, i = .pop a) ∨ i = .ret) →
      Memory.read s'.mem s.sp.toNat = Memory.read s.mem s.sp.toNat)
    (ht : exec i s = .next t) : ∃ u, Machine.exec i s' = .next u ∧ R t u := by
  have hread : ((∃ a, i = .pop a) ∨ i = .ret) → s'.memRead s'.sp.toNat = s.memRead s.sp.toNat := by
    intro hi
    simp only [State.memRead, hR.sp h, hm hi]
  cases i with
  | ldi a imm =>
    exact hR.deliver h (.bindValue fun r => .ok (hR.advance 3 (hR.writeReg r _ h))) ht
  | prn a =>
    refine hR.deliver h (.bindValue fun r => ?_) ht
    rw [hR.readReg h]
    exact .ok (hR.advance 2 (hR.emit _ h))
  | hlt => exact hR.deliver h (.ok (hR.advance 1 (hR.halt h))) ht
  | not a =>
    exact hR.deliver h (.bindValue fun d =>
      (hR.aluApply h .not d d).bind fun _ _ h' => .ok (hR.advance 2 h')) ht
  | push a =>
    refine hR.deliver h (.bindValue fun r => (hR.spDown h).bind fun u u' hu => ?_) ht
    rw [hR.sp hu, hR.readReg hu]
    exact (hR.memWrite hu _ _).bind fun _ _ h' => .ok (hR.advance 2 h')
  | call a =>
    refine hR.deliver h (.bindValue fun r => (hR.spDown h).bind fun u u' hu => ?_) ht
    rw [hR.sp hu, hR.pc h]
    refine (hR.memWrite hu _ _).bind fun v v' hv => ?_
    rw [hR.readReg hv]
    exact .ok (hR.jump _ hv)
  | pop a =>
    refine hR.deliver h (.bindValue fun r => ?_) ht
    rw [hread (.inl ⟨a, rfl⟩)]
    exact .bindValue fun v => (hR.spUp (hR.writeReg r v h)).bind fun _ _ h' => .ok (hR.advance 2 h')
  | ret =>
    refine hR.deliver h ((hR.spUp h).bind fun u u' hu => ?_) ht
    rw [hread (.inr rfl)]
    exact .bindValue fun target => .ok (hR.jump target hu)
  | jmp a =>
    refine hR.deliver h (.bindValue fun r => ?_) ht
    rw [hR.readReg h]
    exact .ok (hR.jump _ h)
  | jeq a =>
    refine hR.deliver h (.bindValue fun r => ?_) ht
    rw [hR.readReg h, he ⟨a, .inl rfl⟩]
    split
    · exact .ok (hR.jump _ h)
    · exact .ok (hR.advance 2 h)
  | jne a =>
    refine hR.deliver h (.bindValue fun r => ?_) ht
    rw [hR.readReg h, he ⟨a, .inr rfl⟩]
    split
    · exact .ok (hR.advance 2 h)
    · exact .ok (hR.jump _ h)
  | add a b | mul a b | cmp a b | and a b | or a b | xor a b | shl a b | shr a b | mod a b =>
    exact hR.aluRR h ht

end Congruence

/-- The second state is the first but for memory, FL, output and trace, which stand in these relations
to the first's. -/
def SameBut (M : Memory → Memory → Prop) (F : FlagReg → FlagReg → Prop)
    (O : List Byte → List Byte → Prop) (T : List TraceRecord → List TraceRecord → Prop)
    (s s' : State) : Prop :=
  ∃ mem fl out trace, s' = { s with mem := mem, fl := fl, out := out, trace := trace } ∧
    M s.mem mem ∧ F s.fl fl ∧ O s.out out ∧ T s.trace trace

theorem SameBut.congruence {M : Memory → Memory → Prop} {F : FlagReg → FlagReg → Prop}
    {O : List Byte → List Byte → Prop} {T : List TraceRecord → List TraceRecord → Prop}
    (hM : ∀ m m' a v, M m m' → M (Memory.write m a v) (Memory.write m' a v)) (hF : ∀ f, F f f)
    (hO : ∀ o o' v, O o o' → O (o ++ [v]) (o' ++ [v])) : Congruence (SameBut M F O T) where
  x := by rintro s _ ⟨_, _, _, _, rfl, -⟩; rfl
  pc := by rintro s _ ⟨_, _, _, _, rfl, -⟩; rfl
  op := by rintro s _ ⟨_, _, _, _, rfl, -⟩; rfl
  writeReg r v := by rintro ⟨_, _, _, _, rfl, h⟩; exact ⟨_, _, _, _, rfl, h⟩
  store a v := by rintro ⟨_, _, _, _, rfl, hm, h⟩; exact ⟨_, _, _, _, rfl, hM _ _ a v hm, h⟩
  writeFlags f := by rintro ⟨_, _, _, _, rfl, hm, -, h⟩; exact ⟨_, _, _, _, rfl, hm, hF f, h⟩
  advance n := by rintro ⟨_, _, _, _, rfl, h⟩; exact ⟨_, _, _, _, rfl, h⟩
  jump v := by rintro ⟨_, _, _, _, rfl, h⟩; exact ⟨_, _, _, _, rfl, h⟩
  emit v := by
    rintro ⟨_, _, _, _, rfl, hm, hf, ho, ht⟩
    exact ⟨_, _, _, _, rfl, hm, hf, hO _ _ v ho, ht⟩
  halt := by rintro s _ ⟨_, _, _, _, rfl, h⟩; exact ⟨_, _, _, _, rfl, h⟩
  takeFault o d := by rintro ⟨_, _, _, _, rfl, h⟩; exact ⟨_, _, _, _, rfl, h⟩

/-- FL alone differs; afterwards FL is the old one, or both runs' (CMP's result). -/
theorem exec_of_flags {i : Instr} {s t : State} (f : FlagReg)
    (he : (∃ a, i = .jeq a ∨ i = .jne a) → f.e = s.fl.e) (h : exec i s = .next t) :
    ∃ fl, exec i { s with fl := f } = .next { t with fl := fl } ∧ (fl = f ∨ fl = t.fl) := by
  have hR : Congruence (SameBut Eq (fun g g' => g' = f ∨ g' = g) Eq Eq) :=
    SameBut.congruence (fun _ _ _ _ h => h ▸ rfl) (fun _ => .inr rfl) fun _ _ _ h => h ▸ rfl
  obtain ⟨_, hu, _, fl, _, _, rfl, rfl, hfl, rfl, rfl⟩ :=
    hR.exec (s' := { s with fl := f }) ⟨_, _, _, _, rfl, rfl, .inl rfl, rfl, rfl⟩ he (fun _ => rfl) h
  exact ⟨fl, hu, hfl⟩

theorem exec_of_output {i : Instr} {s t : State} (out : List Byte) (h : exec i s = .next t) :
    ∃ out', exec i { s with out := out } = .next { t with out := out' } := by
  have hR : Congruence (SameBut Eq Eq (fun _ _ => True) Eq) :=
    SameBut.congruence (fun _ _ _ _ h => h ▸ rfl) (fun _ => rfl) fun _ _ _ _ => trivial
  obtain ⟨_, hu, _, _, out', _, rfl, rfl, rfl, -, rfl⟩ :=
    hR.exec (s' := { s with out := out }) ⟨_, _, _, _, rfl, rfl, rfl, trivial, rfl⟩
      (fun _ => rfl) (fun _ => rfl) h
  exact ⟨out', hu⟩

theorem exec_of_trace {i : Instr} {s t : State} (trace : List TraceRecord) (h : exec i s = .next t) :
    ∃ trace', exec i { s with trace := trace } = .next { t with trace := trace' } := by
  have hR : Congruence (SameBut Eq Eq Eq fun _ _ => True) :=
    SameBut.congruence (fun _ _ _ _ h => h ▸ rfl) (fun _ => rfl) fun _ _ _ h => h ▸ rfl
  obtain ⟨_, hu, _, _, _, trace', rfl, rfl, rfl, rfl, -⟩ :=
    hR.exec (s' := { s with trace := trace }) ⟨_, _, _, _, rfl, rfl, rfl, rfl, trivial⟩
      (fun _ => rfl) (fun _ => rfl) h
  exact ⟨trace', hu⟩

/-! Facts that the settled statements share. -/

theorem cmpFlags_exclusive (a b : Byte) : (cmpFlags a b).exclusive = true := by
  unfold cmpFlags FlagReg.exclusive
  rcases Nat.lt_trichotomy a.toNat b.toNat with h | h | h
  · simp [h, h.ne, h.le]
  · simp [h]
  · simp [h, h.ne', h.le]

theorem Effect.exclusive {i : Instr} {s t : State} (he : Effect i s t)
    (h : s.fl.exclusive = true) : t.fl.exclusive = true := by
  obtain hfl | ⟨_, _, v, w, -, hfl⟩ := he.fl
  · rwa [hfl]
  · rw [hfl]; exact cmpFlags_exclusive v w

theorem Effect.mem_wf {i : Instr} {s t : State} (he : Effect i s t) (h : s.mem.wf = true) :
    t.mem.wf = true := by
  obtain hm | ⟨a, v, hm⟩ := he.mem
  · rwa [hm]
  · rw [hm]; exact Memory.wf_write v h a.isLt

theorem Effect.state_ne_faulted {i : Instr} {s t : State} (he : Effect i s t)
    (hs : s.state ≠ .faulted) : t.state ≠ .faulted := by
  rw [he.state]
  split
  · nofun
  · exact hs

theorem Raised.sound {i : Instr} {s : State} {d : FaultDetail} (hd : Raised i s d) (pc : Nat)
    (op : Byte) : FaultRecord.sound { pc := pc, opcode := some op, detail := d } = true := by
  cases hd with
  | register hreg => simpa [FaultRecord.sound] using List.find?_some hreg
  | stackLow => rfl
  | stackHigh => rfl
  | divisor => rfl

/-- A fault taken with a sound record is consistent (R17). -/
theorem State.takeFault_consistent {s : State} {o : Option Byte} {d : FaultDetail}
    (h : FaultRecord.sound { pc := s.pc, opcode := o, detail := d } = true) :
    (s.takeFault o d).faultConsistent = true := by
  simp [State.faultConsistent, h]

theorem State.faultConsistent_of_running {s : State} (hs : s.state = .running) :
    s.faultConsistent = true ↔ s.fault = none := by
  cases hf : s.fault <;> simp [State.faultConsistent, hs, hf]

theorem Effect.faultConsistent {i : Instr} {s t : State} (he : Effect i s t)
    (hs : s.state = .running) (h : s.faultConsistent = true) : t.faultConsistent = true := by
  have hf : t.fault = none := he.fault.trans ((State.faultConsistent_of_running hs).mp h)
  have ht := he.state
  unfold State.faultConsistent
  split at ht <;> simp [ht, hs, hf]

/-- Taking a fault with a sound record keeps the invariant. -/
theorem State.Inv.takeFault {s : State} {o : Option Byte} {d : FaultDetail} (h : s.Inv)
    (hd : FaultRecord.sound { pc := s.pc, opcode := o, detail := d } = true) :
    (s.takeFault o d).Inv := by
  obtain ⟨hmem, hpc, hfl, -, htrace⟩ := h
  exact ⟨hmem, hpc, hfl, State.takeFault_consistent hd, htrace⟩

/-- A successful fetch keeps the invariant. -/
theorem State.Inv.fetched {s : State} (h : s.Inv) (hpc : s.pc ≤ 253) : s.fetched.Inv := by
  obtain ⟨hmem, hpc', hfl, hf, htrace⟩ := h
  exact ⟨hmem, hpc', hfl, hf, by simp_all [State.fetched]⟩

/-- A handler keeps the invariant from a state whose fetch succeeded. -/
theorem State.Inv.exec {i : Instr} {s t : State} (h : s.Inv) (hs : s.state = .running)
    (hpc : s.pc ≤ 253) (ht : exec i s = .next t) : t.Inv := by
  cases exec_answer ht with
  | effect _ he =>
    obtain ⟨hmem, -, hfl, hf, htrace⟩ := h
    have := he.pc
    exact ⟨he.mem_wf hmem, by omega, he.exclusive hfl, he.faultConsistent hs hf, he.trace ▸ htrace⟩
  | fault hd => exact h.takeFault (hd.sound _ _)

/-! The settled statements. -/

/-- Settles O4: the invariant by the three ways a step goes on (`stepWith_next`). -/
theorem stepKeepsInvariant : Obligations.StepKeepsInvariant := by
  intro m s t h hstep
  obtain ⟨hs, ⟨hpc, rfl⟩ | ⟨hpc, -, rfl⟩ | ⟨hpc, i, -, ht⟩⟩ := stepWith_next.mp hstep
  · have ⟨_, hle, _⟩ := h
    refine h.takeFault ?_
    simp only [FaultRecord.sound, Bool.and_eq_true, decide_eq_true_eq]
    omega
  · exact (h.fetched hpc).takeFault (by simp [FaultRecord.sound])
  · exact (h.fetched hpc).exec hs hpc ht

/-- Settles O2: a closed fact about the one reset state. -/
theorem resetMeetsInvariant : Obligations.ResetMeetsInvariant := by
  unfold Obligations.ResetMeetsInvariant
  decide

/-- A loaded program starts in a state that meets the invariant. -/
theorem boot_inv {source : Option (List Char)} {s : State} (h : boot source = .ok s) : s.Inv := by
  unfold boot at h
  split at h
  · cases h
  · next mem hload =>
    cases h
    obtain ⟨-, hreset⟩ := resetMeetsInvariant
    exact ⟨load_wf hload, hreset⟩

theorem RunsTo.inv {n : Nat} {s t : State} (hrun : RunsTo n s t) (h : s.Inv) : t.Inv := by
  induction n generalizing s with
  | zero => exact runsTo_zero.mp hrun ▸ h
  | succ n ih =>
    obtain ⟨u, hu, hrun⟩ := hrun
    exact ih hrun (stepKeepsInvariant _ s u h hu)

/-- Settles O5: the loaded start state, then O4 along the run. -/
theorem reachableStatesMeetInvariant : Obligations.ReachableStatesMeetInvariant := by
  rintro s ⟨source, start, n, hboot, hrun⟩
  exact hrun.inv (boot_inv hboot)

theorem stepWith_answers (m : OpcodeMap) {s : State} (hs : s.state = .running) :
    ∃ t, stepWith m s = .next t := by
  by_cases hpc : 253 < s.pc
  · exact ⟨_, stepWith_next.mpr ⟨hs, .inl ⟨hpc, rfl⟩⟩⟩
  · cases hd : decodeWith m s.fetched.op s.fetched.opA s.fetched.opB with
    | error r =>
      obtain ⟨hk, -⟩ := decodeWith_error.mp hd
      exact ⟨_, stepWith_next.mpr ⟨hs, .inr (.inl ⟨by omega, hk, rfl⟩)⟩⟩
    | ok i =>
      obtain ⟨t, ht⟩ := exec_answers i s.fetched
      exact ⟨t, stepWith_next.mpr ⟨hs, .inr (.inr ⟨by omega, i, hd, ht⟩)⟩⟩

/-- Settles O6: the three ways a step goes on leave no RUNNING state out. -/
theorem engineStepsExactlyWhileRunning : Obligations.EngineStepsExactlyWhileRunning := by
  intro m s
  refine ⟨⟨fun ⟨t, ht⟩ => (stepWith_next.mp ht).1, stepWith_answers m⟩, fun hs => ?_, fun hs => ?_⟩
  · simp only [stepWith, hs]
  · simp only [stepWith, hs]

/-- From RUNNING a handler halts exactly when it is HLT's. -/
theorem exec_halted_iff {i : Instr} {s t : State} (hs : s.state = .running)
    (h : exec i s = .next t) : t.state = .halted ↔ i = .hlt := by
  constructor
  · intro ht
    cases exec_answer h with
    | effect _ he => simpa [he.state, hs] using ht
    | fault => cases ht
  · rintro rfl
    rw [execHlt_next.mp h]
    rfl

theorem instr_eq_hlt_iff {k : Mnemonic} {opA opB : Byte} : k.instr opA opB = .hlt ↔ k = .hlt := by
  cases k <;> simp [Mnemonic.instr]

/-- Settles O8: only the third way of a step can halt, and there the byte at pc names the handler. -/
theorem onlyHltHalts : Obligations.OnlyHltHalts := by
  intro m s t hm hstep
  obtain ⟨hs, ⟨hpc, rfl⟩ | ⟨hpc, hk, rfl⟩ | ⟨hpc, i, hi, ht⟩⟩ := stepWith_next.mp hstep
  · simp; omega
  · have hop : Memory.read s.mem s.pc ≠ m .hlt := (hk .hlt).symm
    simp [hop]
  · obtain ⟨k, hk, rfl⟩ := decodeWith_ok.mp hi
    have hbyte : m k = Memory.read s.mem s.pc := OpcodeMap.lookup_some hk
    rw [exec_halted_iff (s := s.fetched) hs ht, instr_eq_hlt_iff, ← hbyte]
    exact ⟨fun h => ⟨hpc, h ▸ rfl⟩, fun ⟨_, h⟩ => hm.1 k .hlt h⟩

/-- Settles O15: the register byte is found before any effect and any other fault. -/
theorem registerIndexAboveSevenFaults : Obligations.RegisterIndexAboveSevenFaults := by
  refine ⟨fun i s hb => ?_, fun b => ⟨fun hb => ?_, fun hb => ?_⟩⟩
  · have hbad : badRegister i ≠ none := by simpa [badRegister] using hb
    obtain ⟨t, ht⟩ := exec_answers i s
    rw [ht]
    cases exec_answer ht with
    | effect hreg => exact absurd hreg hbad
    | fault hd =>
      cases hd with
      | @register b hreg =>
        exact ⟨b, _, List.mem_of_find?_eq_some hreg, by simpa using List.find?_some hreg, rfl, rfl, rfl⟩
      | stackLow hreg => exact absurd hreg hbad
      | stackHigh hreg => exact absurd hreg hbad
      | divisor hreg => exact absurd hreg hbad
  · exact ⟨⟨b.toNat, by omega⟩, regOperand_ok.mpr rfl, rfl⟩
  · exact regOperand_error.mpr ⟨hb, rfl⟩

/-- Settles O46: by the two kinds of answer a handler gives. -/
theorem handlersWriteOnlyTheirRegisters : Obligations.HandlersWriteOnlyTheirRegisters := by
  intro i s t h
  cases exec_answer h with
  | effect _ he => exact ⟨he.x, fun hs ht => absurd ht (he.state_ne_faulted hs)⟩
  | fault => exact ⟨fun _ _ => rfl, fun _ _ => rfl⟩

theorem exec_fl_of_faulted {i : Instr} {s t : State} (h : exec i s = .next t)
    (hs : s.state ≠ .faulted) (ht : t.state = .faulted) : t.fl = s.fl := by
  cases exec_answer h with
  | effect _ he => exact absurd ht (he.state_ne_faulted hs)
  | fault => rfl

theorem exec_fl_of_ne_cmp {i : Instr} {s t : State} (h : exec i s = .next t)
    (hi : ∀ a b, i ≠ .cmp a b) : t.fl = s.fl := by
  cases exec_answer h with
  | effect _ he =>
    obtain hfl | ⟨a, b, -, -, hab, -⟩ := he.fl
    · exact hfl
    · exact absurd hab (hi a b)
  | fault => rfl

/-- Settles O47: what a handler writes by its answer, what it reads by `Congruence.exec`. -/
theorem onlyCmpWritesAndOnlyBranchesReadFlags :
    Obligations.OnlyCmpWritesAndOnlyBranchesReadFlags := by
  refine ⟨fun i s t h => ⟨exec_fl_of_ne_cmp h, exec_fl_of_faulted h, fun f he => ?_⟩,
    fun m s t hstep hf => ?_⟩
  · obtain ⟨fl, hu, hfl⟩ := exec_of_flags f he h
    exact ⟨_, hu, rfl, hfl⟩
  · obtain ⟨hs, ⟨-, rfl⟩ | ⟨-, -, rfl⟩ | ⟨-, i, -, ht⟩⟩ := stepWith_next.mp hstep
    · rfl
    · rfl
    · have hs' : s.fetched.state ≠ .faulted := fun h => by cases hs.symm.trans h
      exact exec_fl_of_faulted (s := s.fetched) ht hs' hf

/-- Settles O49: the write by the handler's answer, the read by `Congruence.exec`. -/
theorem outputGrowsByPrnAlone : Obligations.OutputGrowsByPrnAlone := by
  intro i s t h
  refine ⟨?_, fun out => ?_⟩
  · cases exec_answer h with
    | effect _ he => exact he.out
    | fault => exact .inl rfl
  · obtain ⟨out', hu⟩ := exec_of_output out h
    exact ⟨_, hu, rfl⟩

/-- Settles O50: by the two kinds of answer, and whether an effect is HLT's. -/
theorem handlersKeepLatchesAndEngineState : Obligations.HandlersKeepLatchesAndEngineState := by
  intro i s t h
  cases exec_answer h with
  | effect _ he =>
    refine ⟨he.op, he.opA, he.opB, he.trace, ?_⟩
    by_cases hi : i = .hlt
    · exact .inr (.inl ⟨hi, he.state.trans (if_pos hi), he.fault⟩)
    · exact .inl ⟨he.state.trans (if_neg hi), he.fault⟩
  | fault hd => exact ⟨rfl, rfl, rfl, rfl, .inr (.inr ⟨_, hd.sound s.pc s.op, rfl, rfl, rfl⟩)⟩

/-- Settles O51: a fetch latches anew, so that two such states differ in the trace alone when the
handler runs. -/
theorem latchesAndTraceAreNeverRead : Obligations.LatchesAndTraceAreNeverRead := by
  intro m s t op opA opB trace hstep
  obtain ⟨hs, ⟨hpc, rfl⟩ | ⟨hpc, hk, rfl⟩ | ⟨hpc, i, hi, ht⟩⟩ := stepWith_next.mp hstep
  · exact ⟨_, stepWith_next.mpr ⟨hs, .inl ⟨hpc, rfl⟩⟩, rfl⟩
  · exact ⟨_, stepWith_next.mpr ⟨hs, .inr (.inl ⟨hpc, hk, rfl⟩)⟩, rfl⟩
  · obtain ⟨trace', hu⟩ := exec_of_trace
      { s with op := op, opA := opA, opB := opB, trace := trace }.fetched.trace ht
    exact ⟨_, stepWith_next.mpr ⟨hs, .inr (.inr ⟨hpc, i, hi, hu⟩)⟩, rfl⟩

/-- Settles O1: an empty memory reads 0 everywhere in range. -/
theorem resetIsZeroAndRunning : Obligations.ResetIsZeroAndRunning := by
  refine ⟨fun a ha => State.memRead_ok.mpr ⟨ha, rfl⟩, fun r => ?_, rfl, rfl, rfl, rfl, rfl⟩
  simp [State.reset]

end Sys2Proof.Machine

namespace Sys2Proof.Machine

/-! Memory: what PUSH and CALL store, and that nothing else does. -/

/-- SP lowered by 1 and a byte stored at the new SP: what PUSH and CALL have in common (R71, R74). -/
def State.pushByte (s : State) (v : Byte) : State :=
  { s.writeReg spIndex (s.sp - 1#8) with mem := Memory.write s.mem (s.sp - 1#8).toNat v }

theorem State.sp_writeReg_sp (s : State) (v : Byte) : (s.writeReg spIndex v).sp = v :=
  s.readReg_writeReg_same spIndex v

/-- PUSH of a register, with SP above 0. -/
theorem exec_push {a : Byte} {r : RegIndex} {s : State} (ha : a.toNat = r.val) (hsp : s.sp ≠ 0#8) :
    exec (.push a) s =
      .next ((s.pushByte ((s.writeReg spIndex (s.sp - 1#8)).readReg r)).advance 2) :=
  execPush_next.mpr (.inl ⟨r, _, ha, hsp, rfl, by rw [State.sp_writeReg_sp]; rfl⟩)

/-- CALL to a register, with SP above 0. -/
theorem exec_call {a : Byte} {r : RegIndex} {s : State} (ha : a.toNat = r.val) (hsp : s.sp ≠ 0#8) :
    exec (.call a) s =
      .next ((s.pushByte (mod256 (s.pc + 2))).jump
        ((s.writeReg spIndex (s.sp - 1#8)).readReg r)) :=
  execCall_next.mpr (.inl ⟨r, _, ha, hsp, rfl, by rw [State.sp_writeReg_sp]; rfl⟩)

/-- SP above 0 is lowered without a wrap. -/
theorem toNat_sub_one {v : Byte} (hv : v ≠ 0#8) : (v - 1#8).toNat = v.toNat - 1 := by bv_omega

theorem State.read_pushByte {s : State} (hmem : s.mem.wf = true) (hsp : s.sp ≠ 0#8) (v : Byte)
    (c : Nat) :
    Memory.read (s.pushByte v).mem c = if c = s.sp.toNat - 1 then v else Memory.read s.mem c := by
  rw [← toNat_sub_one hsp]
  exact Memory.read_write hmem _ v c

/-- PUSH and CALL fault and keep memory, or store one byte below SP. -/
theorem exec_mem_of_store {i : Instr} {a : Byte} {s t : State} (hi : i = .push a ∨ i = .call a)
    (h : exec i s = .next t) :
    t.mem = s.mem ∨ (s.sp ≠ 0#8 ∧ ∃ v, t.mem = (s.pushByte v).mem) := by
  obtain rfl | rfl := hi
  · obtain ⟨r, _, -, hsp, rfl, rfl⟩ | ⟨_, rfl, -⟩ := execPush_next.mp h
    · exact .inr ⟨hsp, _, by rw [State.sp_writeReg_sp]; rfl⟩
    · exact .inl rfl
  · obtain ⟨r, _, -, hsp, rfl, rfl⟩ | ⟨_, rfl, -⟩ := execCall_next.mp h
    · exact .inr ⟨hsp, _, by rw [State.sp_writeReg_sp]; rfl⟩
    · exact .inl rfl

/-- A handler of one register operand whose effect keeps memory, and which has no fault of its own. -/
theorem mem_of_oneRegister {a : Byte} {s t : State} {e : RegIndex → State}
    (h : (∃ r : RegIndex, a.toNat = r.val ∧ t = e r) ∨
      (8 ≤ a.toNat ∧ t = s.takeFault (some s.op) (.registerIndex a)))
    (he : ∀ r, (e r).mem = s.mem) : t.mem = s.mem := by
  obtain ⟨r, -, rfl⟩ | ⟨-, rfl⟩ := h
  · exact he r
  · rfl

theorem State.mem_branch (s : State) (v : Byte) (n : Nat) (c : Prop) [Decidable c] :
    (if c then s.jump v else s.advance n).mem = s.mem := by
  split <;> rfl

theorem aluRR_mem {operation : AluOp} {a b : Byte} {s t : State}
    (h : aluRR operation a b s = .next t) : t.mem = s.mem := by
  obtain ⟨d, src, u, -, -, hu, rfl⟩ | ⟨_, rfl, -⟩ := aluRR_next.mp h
  · obtain ⟨-, rfl⟩ | ⟨-, v, -, rfl⟩ := aluApply_ok.mp hu
    · rfl
    · rfl
  · rfl

/-- Every instruction but PUSH and CALL keeps memory. -/
theorem exec_mem_of_no_store {i : Instr} {s t : State} (hi : ∀ a, i ≠ .push a ∧ i ≠ .call a)
    (h : exec i s = .next t) : t.mem = s.mem := by
  cases i with
  | push a => exact absurd rfl (hi a).1
  | call a => exact absurd rfl (hi a).2
  | ldi a imm => exact mem_of_oneRegister (execLdi_next.mp h) fun _ => rfl
  | prn a => exact mem_of_oneRegister (execPrn_next.mp h) fun _ => rfl
  | not a => exact mem_of_oneRegister (execNot_next.mp h) fun _ => rfl
  | jmp a => exact mem_of_oneRegister (execJmp_next.mp h) fun _ => rfl
  | jeq a => exact mem_of_oneRegister (execJeq_next.mp h) fun _ => s.mem_branch _ _ _
  | jne a =>
    refine mem_of_oneRegister (execJne_next.mp h) fun _ => ?_
    rw [← ite_not]
    exact s.mem_branch _ _ _
  | hlt => rw [execHlt_next.mp h]; rfl
  | pop a =>
    obtain ⟨r, _, -, rfl, -, rfl⟩ | ⟨_, rfl, -⟩ := execPop_next.mp h
    · rfl
    · rfl
  | ret =>
    obtain ⟨-, rfl⟩ | ⟨-, rfl⟩ := execRet_next.mp h
    · rfl
    · rfl
  | add a b | mul a b | cmp a b | and a b | or a b | xor a b | shl a b | shr a b | mod a b =>
    exact aluRR_mem h

/-- No handler changes a byte but the one below SP. -/
theorem exec_read_of_ne {i : Instr} {s t : State} (hmem : s.mem.wf = true) (h : exec i s = .next t)
    {c : Nat} (hc : c + 1 ≠ s.sp.toNat) : Memory.read t.mem c = Memory.read s.mem c := by
  by_cases hi : ∃ a, i = .push a ∨ i = .call a
  · obtain ⟨a, hi⟩ := hi
    obtain hm | ⟨hsp, v, hm⟩ := exec_mem_of_store hi h
    · rw [hm]
    · have hne : c ≠ s.sp.toNat - 1 := by bv_omega
      rw [hm, State.read_pushByte hmem hsp, if_neg hne]
  · rw [exec_mem_of_no_store (fun a => not_or.mp fun h' => hi ⟨a, h'⟩) h]

/-- Memory alone differs, and not in the byte that is popped: the answers differ in memory alone. -/
theorem exec_of_memory {i : Instr} {s t : State} (mem : Memory)
    (hm : ((∃ a, i = .pop a) ∨ i = .ret) → Memory.read mem s.sp.toNat = Memory.read s.mem s.sp.toNat)
    (h : exec i s = .next t) :
    ∃ mem', exec i { s with mem := mem } = .next { t with mem := mem' } := by
  have hR : Congruence (SameBut (fun _ _ => True) Eq Eq Eq) :=
    SameBut.congruence (fun _ _ _ _ _ => trivial) (fun _ => rfl) fun _ _ _ h => h ▸ rfl
  obtain ⟨_, hu, mem', _, _, _, rfl, -, rfl, rfl, rfl⟩ :=
    hR.exec (s' := { s with mem := mem }) ⟨_, _, _, _, rfl, trivial, rfl, rfl, rfl⟩
      (fun _ => rfl) hm h
  exact ⟨mem', hu⟩

/-- The byte a PUSH or CALL stores below SP depends on no memory: from every canonical memory it is
the same. -/
theorem exec_stores {i : Instr} {a : Byte} {s : State} (hi : i = .push a ∨ i = .call a)
    (ha : a.toNat ≤ 7) (hsp : s.sp ≠ 0#8) :
    ∃ v, ∀ mem t, mem.wf = true → exec i { s with mem := mem } = .next t →
      Memory.read t.mem (s.sp.toNat - 1) = v := by
  let r : RegIndex := ⟨a.toNat, by omega⟩
  obtain rfl | rfl := hi
  · refine ⟨(s.writeReg spIndex (s.sp - 1#8)).readReg r, fun mem t hmem ht => ?_⟩
    cases (exec_push (r := r) (s := { s with mem := mem }) rfl hsp).symm.trans ht
    exact (State.read_pushByte (s := { s with mem := mem }) hmem hsp _ _).trans (if_pos rfl)
  · refine ⟨mod256 (s.pc + 2), fun mem t hmem ht => ?_⟩
    cases (exec_call (r := r) (s := { s with mem := mem }) rfl hsp).symm.trans ht
    exact (State.read_pushByte (s := { s with mem := mem }) hmem hsp _ _).trans (if_pos rfl)

/-- A fetch depends on the three bytes from pc alone. -/
theorem fetch_of_memory {s : State} {mem : Memory}
    (hread : ∀ k, k < 3 → Memory.read mem (s.pc + k) = Memory.read s.mem (s.pc + k)) :
    fetch { s with mem := mem } = fetch s := by
  have hbyte : ∀ k, k < 3 →
      State.memRead { s with mem := mem } (s.pc + k) = s.memRead (s.pc + k) := fun k hk => by
    simp only [State.memRead, hread k hk]
  have h0 : State.memRead { s with mem := mem } s.pc = s.memRead s.pc := hbyte 0 (by decide)
  simp only [fetch, h0, hbyte 1 (by decide), hbyte 2 (by decide)]

/-- Settles O48: what a handler writes by its effect on memory, what it reads by
`Congruence.exec`. -/
theorem onlyFetchAndStackReachMemory : Obligations.OnlyFetchAndStackReachMemory := by
  refine ⟨fun s mem hread => fetch_of_memory hread, fun i s t hmem h => ⟨fun hi =>
    exec_mem_of_no_store hi h, fun c hc => exec_read_of_ne hmem h hc⟩, fun i s t mem h hm => ?_⟩
  obtain ⟨mem', hu⟩ := exec_of_memory mem hm h
  refine ⟨_, hu, rfl, fun a hi ha hsp hmem hmem' => ?_⟩
  obtain ⟨v, hv⟩ := exec_stores (s := s) hi ha hsp
  exact (hv mem _ hmem' hu).trans (hv s.mem t hmem h).symm

/-- Settles O21: read after write in a canonical memory, and the empty memory of reset. -/
theorem memoryReadsLatestWrite : Obligations.MemoryReadsLatestWrite := by
  refine ⟨fun s a v hmem ha => ?_, fun a ha => State.memRead_ok.mpr ⟨by omega, rfl⟩⟩
  have ha' : a < 256 := by omega
  refine ⟨_, State.memWrite_ok.mpr ⟨ha', rfl⟩, Memory.wf_write v hmem ha',
    State.memRead_ok.mpr ⟨ha', ?_⟩, fun c hc => ?_, rfl⟩
  · rw [Memory.read_write hmem, if_pos rfl]
  · simp only [State.memRead, Memory.read_write hmem, if_neg hc]

/-- Settles O22: no handler raises a memory index (`Raised`), so that of the ways a step goes on only
the fetch fault is left. -/
theorem outOfRangeMemoryAccessRaises : Obligations.OutOfRangeMemoryAccessRaises := by
  refine ⟨fun s a v ha => ⟨State.memRead_error.mpr ⟨ha, rfl⟩, State.memWrite_error.mpr ⟨ha, rfl⟩⟩,
    fun m s t r n hstep hf hr hd => ?_⟩
  obtain ⟨hs, ⟨hpc, -⟩ | ⟨-, -, rfl⟩ | ⟨-, i, -, ht⟩⟩ := stepWith_next.mp hstep
  · exact hpc
  · cases hr
    cases hd
  · cases exec_answer ht with
    | effect _ he =>
      have hs' : s.fetched.state ≠ .faulted := fun h => by cases hs.symm.trans h
      exact absurd hf (he.state_ne_faulted hs')
    | fault hraised =>
      cases hr
      cases hd
      cases hraised

theorem fetch_bytes {s : State} {b0 b1 b2 : Byte} (h : fetch s = .ok (b0, b1, b2)) :
    [b0, b1, b2] = [0, 1, 2].map fun k => Memory.read s.mem (s.pc + k) := by
  obtain ⟨-, rfl, rfl, rfl⟩ := fetch_ok.mp h
  rfl

/-- Settles O23: the fetch reads the memory after the store, address by address. -/
theorem storeIsSeenByTheNextFetch : Obligations.StoreIsSeenByTheNextFetch := by
  intro s t a r b0 b1 b2 hmem ha hsp hfetch
  refine ⟨fun h => ?_, fun _ h => ?_⟩
  · cases (exec_push ha hsp).symm.trans h
    exact (fetch_bytes hfetch).trans
      (List.map_congr_left fun k _ => State.read_pushByte hmem hsp _ _)
  · cases (exec_call ha hsp).symm.trans h
    exact (fetch_bytes hfetch).trans
      (List.map_congr_left fun k _ => State.read_pushByte hmem hsp _ _)

end Sys2Proof.Machine

namespace Sys2Proof

/-! Encoding: an instruction is its mnemonic with the operand bytes its format owns. -/

@[simp] theorem Mnemonic.mnemonic_instr (k : Mnemonic) (a b : Byte) :
    (k.instr a b).mnemonic = k := by
  cases k <;> rfl

theorem Instr.exists_eq_instr (i : Instr) : ∃ (k : Mnemonic) (a b : Byte), i = k.instr a b :=
  ⟨i.mnemonic, i.operandBytes.getD 0 0, i.operandBytes.getD 1 0, by cases i <;> rfl⟩

/-- Of the two candidate operand bytes an instruction holds those its width counts (R39, R43). -/
theorem Mnemonic.operandBytes_instr (k : Mnemonic) (a b : Byte) :
    (k.instr a b).operandBytes = [a, b].take (k.format.width - 1) := by
  cases k <;> rfl

/-- How many of an instruction's operand bytes name registers, A first (R39). -/
def Format.registerCount : Format → Nat
  | .N => 0
  | .R | .RI => 1
  | .RR => 2

theorem Mnemonic.registerBytes_instr (k : Mnemonic) (a b : Byte) :
    (k.instr a b).registerBytes = [a, b].take k.format.registerCount := by
  cases k <;> rfl

/-- Candidate bytes that begin with an instruction's own give it, whatever comes after them (R41). -/
theorem Mnemonic.instr_of_operandBytes {k : Mnemonic} {a b opA opB : Byte} {extra : List Byte}
    (h : (k.instr a b).operandBytes ++ extra = [opA, opB]) : k.instr opA opB = k.instr a b := by
  cases k <;> simp_all [Instr.operandBytes, Mnemonic.instr]

theorem encodeWith_length (m : OpcodeMap) (i : Instr) : (encodeWith m i).length = i.width := by
  cases i <;> rfl

theorem decodeBytesWith_encodeWith {m : OpcodeMap} {i : Instr}
    (h : m.lookup (m i.mnemonic) = some i.mnemonic) (rest : List Byte) :
    decodeBytesWith m (encodeWith m i ++ rest) = .ok (i, rest) := by
  simp only [encodeWith, List.cons_append, decodeBytesWith, h]
  cases i <;> rfl

/-- What the stream decoder reads is an encoding whose opcode byte the lookup finds. -/
theorem decodeBytesWith_ok {m : OpcodeMap} {bs rest : List Byte} {i : Instr} :
    decodeBytesWith m bs = .ok (i, rest) ↔
      m.lookup (m i.mnemonic) = some i.mnemonic ∧ encodeWith m i ++ rest = bs := by
  refine ⟨fun h => ?_, fun ⟨h, hbs⟩ => hbs ▸ decodeBytesWith_encodeWith h rest⟩
  cases bs with
  | nil => simp [decodeBytesWith] at h
  | cons op tail =>
    cases hk : m.lookup op with
    | none => simp [decodeBytesWith, hk] at h
    | some k =>
      obtain rfl := OpcodeMap.lookup_some hk
      simp only [decodeBytesWith, hk] at h
      split at h <;> cases h
      all_goals simp [encodeWith, Mnemonic.operandBytes_instr, Format.width, *]

/-- Under a valid map the bytes with an entry are those of the twenty mnemonics, each once. -/
theorem OpcodeMap.legalBytes_perm {m : OpcodeMap} (hm : m.Valid) :
    ((List.range 256).filter fun n => !(m.lookup (BitVec.ofNat 8 n)).isNone).Perm
      (Mnemonic.all.map fun k => (m k).toNat) := by
  obtain ⟨hinj, -⟩ := hm
  have hall : Mnemonic.all.Nodup := by decide
  have hbytes : (Mnemonic.all.map fun k => (m k).toNat).Nodup :=
    hall.map fun j k h => hinj j k (BitVec.eq_of_toNat_eq h)
  refine (List.perm_ext_iff_of_nodup (List.nodup_range.filter _) hbytes).mpr fun n => ?_
  have hlegal : m.lookup (BitVec.ofNat 8 n) ≠ none ↔ ∃ k, m k = BitVec.ofNat 8 n := by
    simp [OpcodeMap.lookup_none]
  simp only [List.mem_filter, List.mem_range, List.mem_map, Mnemonic.mem_all, true_and,
    Bool.not_eq_true', Option.isNone_eq_false_iff, Option.isSome_iff_ne_none, hlegal]
  constructor
  · rintro ⟨hn, k, hk⟩
    exact ⟨k, by simp [hk, Nat.mod_eq_of_lt hn]⟩
  · rintro ⟨k, rfl⟩
    exact ⟨(m k).isLt, k, by simp⟩

theorem OpcodeMap.illegalBytes_length {m : OpcodeMap} (hm : m.Valid) :
    ((List.range 256).filter fun n => (m.lookup (BitVec.ofNat 8 n)).isNone).length = 236 := by
  have hsplit := List.length_eq_length_filter_add (l := List.range 256)
    fun n => (m.lookup (BitVec.ofNat 8 n)).isNone
  have hlegal : Mnemonic.all.length = 20 := rfl
  rw [(OpcodeMap.legalBytes_perm hm).length_eq, List.length_map, List.length_range] at hsplit
  omega

end Sys2Proof

namespace Sys2Proof.Machine

/-- Settles O18: a valid map finds each opcode byte, and the format then counts the bytes read. -/
theorem streamDecodeInvertsEncode : Obligations.StreamDecodeInvertsEncode :=
  fun m hm i rest =>
    ⟨decodeBytesWith_encodeWith (OpcodeMap.lookup_of_valid hm _) rest, encodeWith_length m i⟩

/-- Settles O20: one direction of `decodeBytesWith_ok`, which asks nothing of the map. -/
theorem encodeInvertsStreamDecode : Obligations.EncodeInvertsStreamDecode := by
  intro m bs rest i h
  obtain ⟨-, hbs⟩ := decodeBytesWith_ok.mp h
  exact hbs

/-- Settles O19: the opcode byte finds the mnemonic, and the instruction's own bytes come first. -/
theorem engineDecodeIgnoresForeignBytes : Obligations.EngineDecodeIgnoresForeignBytes := by
  intro m hm i extra op opA opB h
  obtain ⟨k, a, b, rfl⟩ := i.exists_eq_instr
  obtain ⟨rfl, hbytes⟩ := List.cons.inj h
  rw [Mnemonic.mnemonic_instr]
  exact decodeWith_ok.mpr
    ⟨k, OpcodeMap.lookup_of_valid hm k, (Mnemonic.instr_of_operandBytes hbytes).symm⟩

/-- Settles O10: the first address above 255 is the greater of 256 and pc. -/
theorem fetchFaultsBeyond253 : Obligations.FetchFaultsBeyond253 := by
  intro m s hs hpc
  have hfirst : (if s.pc < 256 then 256 else s.pc) = max 256 s.pc := by split <;> omega
  rw [hfirst]
  exact stepWith_next.mpr ⟨hs, .inl ⟨hpc, rfl⟩⟩

theorem stepWith_of_decodeWith {m : OpcodeMap} {s : State} {i : Instr} (hs : s.state = .running)
    (hpc : s.pc ≤ 253) (hi : decodeWith m s.fetched.op s.fetched.opA s.fetched.opB = .ok i) :
    stepWith m s = exec i s.fetched := by
  obtain ⟨t, ht⟩ := exec_answers i s.fetched
  rw [ht]
  exact stepWith_next.mpr ⟨hs, .inr (.inr ⟨hpc, i, hi, ht⟩)⟩

/-- Settles O9: the bytes named are the fetched ones, and `step` is `stepWith` of the default map. -/
theorem stepRunsDecodedInstruction : Obligations.StepRunsDecodedInstruction := by
  rintro s i _ _ _ hs hpc rfl rfl rfl
  exact ⟨stepWith_of_decodeWith hs hpc, fun _ => stepWith_of_decodeWith hs hpc⟩

/-- Settles O12: the count holds of every valid map, the three bytes of the default one. -/
theorem defaultMapLeaves236BytesIllegal : Obligations.DefaultMapLeaves236BytesIllegal :=
  ⟨OpcodeMap.illegalBytes_length Config.opcodeMap_valid, by decide⟩

/-- Settles O17: one evaluation of the default map for each closed word. -/
theorem wordsDecodeAsTheTableSays : Obligations.WordsDecodeAsTheTableSays := by
  unfold Obligations.WordsDecodeAsTheTableSays
  decide

/-! Assembly text: a line is made of words of letters and digits. -/

/-- A mnemonic, a register or a number as a line writes it: letters and digits, at least one. -/
def IsWord (cs : List Char) : Prop := cs ≠ [] ∧ ∀ c ∈ cs, c.isAlphanum = true

theorem isWhitespace_of_isAlphanum {c : Char} (h : c.isAlphanum = true) :
    c.isWhitespace = false := by
  refine Bool.eq_false_iff.mpr fun hw => ?_
  have hc : ((c = ' ' ∨ c = '\t') ∨ c = '\r') ∨ c = '\n' := by
    simpa only [Char.isWhitespace, Bool.or_eq_true, beq_iff_eq, decide_eq_true_eq] using hw
  rcases hc with ((rfl | rfl) | rfl) | rfl <;> exact absurd h (by decide)

theorem IsWord.isWhitespace {w : List Char} (hw : IsWord w) {c : Char} (hc : c ∈ w) :
    c.isWhitespace = false := isWhitespace_of_isAlphanum (hw.2 c hc)

theorem IsWord.ne_comma {w : List Char} (hw : IsWord w) : ∀ c ∈ w, (c != ',') = true := by
  refine fun c hc => bne_iff_ne.mpr ?_
  rintro rfl
  exact absurd (hw.2 ',' hc) (by decide)

/-! Trimming. -/

theorem dropWhile_eq_self_of_head {p : Char → Bool} {cs : List Char}
    (h : ∀ c ∈ cs.head?, p c = false) : cs.dropWhile p = cs := by
  cases cs with
  | nil => rfl
  | cons c cs => exact List.dropWhile_cons_of_neg (by simp [h c rfl])

theorem trim_eq_self {cs : List Char} (hfront : ∀ c ∈ cs.head?, c.isWhitespace = false)
    (hback : ∀ c ∈ cs.getLast?, c.isWhitespace = false) : trim cs = cs := by
  rw [trim, dropWhile_eq_self_of_head hfront,
    dropWhile_eq_self_of_head (by simpa using hback), List.reverse_reverse]

theorem trim_space (cs : List Char) : trim (' ' :: cs) = trim cs := by
  simp [trim, show Char.isWhitespace ' ' = true from rfl]

theorem IsWord.trim {w : List Char} (hw : IsWord w) : trim w = w :=
  trim_eq_self (fun _ hc => hw.isWhitespace (List.mem_of_mem_head? hc))
    (fun _ hc => hw.isWhitespace (List.mem_of_mem_getLast? hc))

/-- A text that begins and ends with a word has nothing to trim. -/
theorem IsWord.trim_between {v w : List Char} (hv : IsWord v) (hw : IsWord w) (mid : List Char) :
    Machine.trim (v ++ (mid ++ w)) = v ++ (mid ++ w) := by
  refine trim_eq_self (fun c hc => ?_) (fun c hc => ?_)
  · rw [List.head?_append_of_ne_nil _ hv.1] at hc
    exact hv.isWhitespace (List.mem_of_mem_head? hc)
  · rw [← List.append_assoc, List.getLast?_append_of_ne_nil _ hw.1] at hc
    exact hw.isWhitespace (List.mem_of_mem_getLast? hc)

/-! Mnemonics. -/

theorem isWord_mnemonicText (k : Mnemonic) : IsWord (mnemonicText k) := by
  have hne : mnemonicText k ≠ [] := by cases k <;> exact List.cons_ne_nil _ _
  have hall : (mnemonicText k).all Char.isAlphanum = true := by cases k <;> rfl
  exact ⟨hne, List.all_eq_true.mp hall⟩

theorem find_mnemonicText (k : Mnemonic) :
    Mnemonic.all.find? (fun j => mnemonicText j == mnemonicText k) = some k := by
  cases k <;> rfl

theorem not_isWhitespace_of_mem_mnemonicText (k : Mnemonic) :
    ∀ c ∈ mnemonicText k, (!c.isWhitespace) = true :=
  fun _ hc => by rw [(isWord_mnemonicText k).isWhitespace hc]; rfl

/-- The name of a line ends at the first space. -/
theorem takeWhile_mnemonicText (k : Mnemonic) (operands : List Char) :
    (mnemonicText k ++ ' ' :: operands).takeWhile (fun c => !c.isWhitespace) = mnemonicText k := by
  rw [List.takeWhile_append_of_pos (not_isWhitespace_of_mem_mnemonicText k),
    List.takeWhile_cons_of_neg (by decide), List.append_nil]

/-! Numbers. -/

theorem digitValue_digit (n : Nat) : digitValue (digit n) = some (n % 10) := by
  have h : ∀ d : Fin 10, digitValue (Char.ofNat (48 + d)) = some d.val := by decide
  exact h ⟨n % 10, Nat.mod_lt n (by decide)⟩

theorem isDigit_digit (n : Nat) : (digit n).isDigit = true := by
  have h : ∀ d : Fin 10, (Char.ofNat (48 + d)).isDigit = true := by decide
  exact h ⟨n % 10, Nat.mod_lt n (by decide)⟩

theorem isDigit_of_mem_decimal {v : Byte} {c : Char} (h : c ∈ decimal v) : c.isDigit = true := by
  have hc : ∃ n, c = digit n := by
    simp only [decimal, List.mem_append, List.mem_ite_nil_right, List.mem_singleton] at h
    obtain (⟨-, h⟩ | ⟨-, h⟩) | h := h <;> exact ⟨_, h⟩
  obtain ⟨n, rfl⟩ := hc
  exact isDigit_digit n

theorem isWord_decimal (v : Byte) : IsWord (decimal v) :=
  ⟨by simp [decimal], fun c hc => by simp [Char.isAlphanum, isDigit_of_mem_decimal hc]⟩

theorem decimal_of_lt_ten {v : Byte} (h : v.toNat < 10) : decimal v = [digit v.toNat] := by
  simp [decimal, show ¬10 ≤ v.toNat by omega, show ¬100 ≤ v.toNat by omega]

@[simp] theorem digitsValue_nil (base acc : Nat) : digitsValue base [] acc = some acc := rfl

@[simp] theorem digitsValue_digit_cons (n : Nat) (cs : List Char) (acc : Nat) :
    digitsValue 10 (digit n :: cs) acc = digitsValue 10 cs (10 * acc + n % 10) := by
  simp [digitsValue, digitValue_digit, Nat.mod_lt n (show 0 < 10 by decide)]

theorem digitsValue_decimal (v : Byte) : digitsValue 10 (decimal v) 0 = some v.toNat := by
  have hv : v.toNat < 256 := v.isLt
  simp only [decimal]
  split_ifs <;> simp <;> omega

theorem byteLiteral_decimal (v : Byte) : byteLiteral 10 (decimal v) = some v := by
  have hv : v.toNat ≤ 255 := Nat.le_of_lt_succ v.isLt
  simp [byteLiteral, (isWord_decimal v).1, digitsValue_decimal, hv, mod256]

/-- A decimal number holds no `x` and no `b`, so it is read in base 10, and before any label. -/
theorem parseImm_decimal (labels : Labels) (v : Byte) : parseImm labels (decimal v) = some v := by
  have hx : 'x' ∉ decimal v := fun h => absurd (isDigit_of_mem_decimal h) (by decide)
  have hb : 'b' ∉ decimal v := fun h => absurd (isDigit_of_mem_decimal h) (by decide)
  unfold parseImm
  split
  · next heq => simp [heq] at hx
  · next heq => simp [heq] at hb
  · rw [byteLiteral_decimal]

theorem isWord_regText (a : Byte) : IsWord (regText a) :=
  ⟨List.cons_ne_nil _ _, List.forall_mem_cons.mpr ⟨by decide, (isWord_decimal a).2⟩⟩

theorem parseReg_regText {a : Byte} (h : a.toNat < 8) : parseReg (regText a) = some a := by
  rw [regText, decimal_of_lt_ten (by omega)]
  simp [parseReg, digitValue_digit, Nat.mod_eq_of_lt (show a.toNat < 10 by omega), h, mod256]

/-! Lines: what `asmText` writes and what `parseAsm` reads, by format (R51). -/

section Lines

variable {k : Mnemonic} {a b : Byte}

theorem asmText_of_N (hk : k.format = .N) : asmText (k.instr a b) = mnemonicText k := by
  simp [asmText, hk]

theorem asmText_of_R (hk : k.format = .R) :
    asmText (k.instr a b) = mnemonicText k ++ ' ' :: regText a := by
  simp [asmText, Mnemonic.operandBytes_instr, Format.width, hk]

theorem asmText_of_RR (hk : k.format = .RR) :
    asmText (k.instr a b) = mnemonicText k ++ ' ' :: (regText a ++ ',' :: regText b) := by
  simp [asmText, Mnemonic.operandBytes_instr, Format.width, hk]

theorem asmText_of_RI (hk : k.format = .RI) :
    asmText (k.instr a b) = mnemonicText k ++ ' ' :: (regText a ++ ',' :: decimal b) := by
  simp [asmText, Mnemonic.operandBytes_instr, Format.width, hk]

theorem parseAsm_of_N (labels : Labels) (hk : k.format = .N) :
    parseAsm labels (mnemonicText k) = some (k.instr 0 0) := by
  have hname : (mnemonicText k).takeWhile (fun c => !c.isWhitespace) = mnemonicText k :=
    List.takeWhile_eq_self_iff.mpr (not_isWhitespace_of_mem_mnemonicText k)
  have hnone : trim [] = [] := rfl
  simp [parseAsm, (isWord_mnemonicText k).trim, hname, hnone, find_mnemonicText, hk]

theorem parseAsm_of_R (labels : Labels) {v : List Char} (hk : k.format = .R) (hv : IsWord v)
    (ha : parseReg v = some a) :
    parseAsm labels (mnemonicText k ++ ' ' :: v) = some (k.instr a 0) := by
  have hline : trim (mnemonicText k ++ ' ' :: v) = mnemonicText k ++ ' ' :: v :=
    (isWord_mnemonicText k).trim_between hv [' ']
  simp [parseAsm, hline, takeWhile_mnemonicText, trim_space, hv.trim, find_mnemonicText, hk, ha]

/-- Two operands are cut at the comma; the format says how the second is read. -/
theorem parseAsm_of_two {labels : Labels} {v w : List Char} (hv : IsWord v) (hw : IsWord w)
    (ha : parseReg v = some a)
    (hb : k.format = .RR ∧ parseReg w = some b ∨ k.format = .RI ∧ parseImm labels w = some b) :
    parseAsm labels (mnemonicText k ++ ' ' :: (v ++ ',' :: w)) = some (k.instr a b) := by
  have hline : trim (mnemonicText k ++ ' ' :: (v ++ ',' :: w)) =
      mnemonicText k ++ ' ' :: (v ++ ',' :: w) := by
    simpa using (isWord_mnemonicText k).trim_between hw (' ' :: (v ++ [',']))
  have hops : trim (v ++ ',' :: w) = v ++ ',' :: w := hv.trim_between hw [',']
  have hfirst : (v ++ ',' :: w).takeWhile (· != ',') = v := by
    simp [List.takeWhile_append_of_pos hv.ne_comma]
  have hrest : (v ++ ',' :: w).dropWhile (· != ',') = ',' :: w := by
    simp [List.dropWhile_append_of_pos hv.ne_comma]
  obtain ⟨hk, hb⟩ | ⟨hk, hb⟩ := hb <;>
    simp [parseAsm, hline, takeWhile_mnemonicText, trim_space, hops, hfirst, hrest, hv.trim,
      hw.trim, find_mnemonicText, hk, ha, hb]

end Lines

/-- Settles O59: by format, each operand is read back from its own word. -/
theorem assemblyTextParsesBack : Obligations.AssemblyTextParsesBack := by
  intro labels i hwf
  obtain ⟨k, a, b, rfl⟩ := i.exists_eq_instr
  have hown := k.operandBytes_instr a b
  rw [Instr.wellFormed, Mnemonic.registerBytes_instr] at hwf
  cases hk : k.format with
  | N =>
    have hzero : k.instr 0 0 = k.instr a b :=
      Mnemonic.instr_of_operandBytes (extra := [0, 0]) (by simp [hown, hk, Format.width])
    rw [asmText_of_N hk, parseAsm_of_N labels hk, hzero]
  | R =>
    have ha : a.toNat < 8 := by simpa [hk, Format.registerCount, regByteOk] using hwf
    have hzero : k.instr a 0 = k.instr a b :=
      Mnemonic.instr_of_operandBytes (extra := [0]) (by simp [hown, hk, Format.width])
    rw [asmText_of_R hk, parseAsm_of_R labels hk (isWord_regText a) (parseReg_regText ha), hzero]
  | RR =>
    obtain ⟨ha, hb⟩ : a.toNat < 8 ∧ b.toNat < 8 := by
      simpa [hk, Format.registerCount, regByteOk] using hwf
    rw [asmText_of_RR hk]
    exact parseAsm_of_two (isWord_regText a) (isWord_regText b) (parseReg_regText ha)
      (.inl ⟨hk, parseReg_regText hb⟩)
  | RI =>
    have ha : a.toNat < 8 := by simpa [hk, Format.registerCount, regByteOk] using hwf
    rw [asmText_of_RI hk]
    exact parseAsm_of_two (isWord_regText a) (isWord_decimal b) (parseReg_regText ha)
      (.inr ⟨hk, parseImm_decimal labels b⟩)

end Sys2Proof.Machine

namespace Sys2Proof.Machine

/-! Output: the text of a byte is its decimal numeral (R103). -/

theorem digit_eq_digitChar (n : Nat) : digit n = (n % 10).digitChar := by
  have h : ∀ d : Fin 10, Char.ofNat (48 + d) = d.val.digitChar := by decide
  exact h ⟨n % 10, Nat.mod_lt n (by decide)⟩

/-- A byte has one, two or three digits; each case peels the numeral's last digit off once more. -/
theorem decimal_eq_toDigits (v : Byte) : decimal v = Nat.toDigits 10 v.toNat := by
  have hpeel {n : Nat} (hn : 10 ≤ n) : Nat.toDigits 10 n = Nat.toDigits 10 (n / 10) ++ [digit n] := by
    rw [Nat.toDigits_of_base_le (by decide) hn, digit_eq_digitChar]
  have hlast {n : Nat} (hn : n < 10) : Nat.toDigits 10 n = [digit n] := by
    rw [Nat.toDigits_of_lt_base hn, digit_eq_digitChar, Nat.mod_eq_of_lt hn]
  have hv : v.toNat < 256 := v.isLt
  rcases Nat.lt_or_ge v.toNat 10 with h10 | h10
  · rw [decimal_of_lt_ten h10, hlast h10]
  rcases Nat.lt_or_ge v.toNat 100 with h100 | h100
  · rw [hpeel h10, hlast (by omega)]
    simp [decimal, h10, h100]
  · rw [hpeel h10, hpeel (by omega), hlast (by omega), Nat.div_div_eq_div_mul]
    simp [decimal, h10, h100]

/-- One more byte of output is one more line of text. -/
theorem stdout_concat (out : List Byte) (v : Byte) :
    stdout (out ++ [v]) = stdout out ++ Nat.toDigits 10 v.toNat ++ ['\n'] := by
  simp [stdout, decimal_eq_toDigits]

/-- Settles O24: the two cases of LDI's handler, a register named or a byte above 7. -/
theorem ldiLoadsImmediate : Obligations.LdiLoadsImmediate := by
  refine fun s a imm => ⟨rfl, fun d hd => ?_, fun ha => ?_⟩
  · exact execLdi_next.mpr (.inl ⟨d, hd, rfl⟩)
  · exact ⟨⟨s.pc, some s.op, .registerIndex a⟩, rfl, rfl, execLdi_next.mpr (.inr ⟨ha, rfl⟩)⟩

/-- Settles O25: the two cases of PRN's handler; the text grows by `stdout_concat`. -/
theorem prnAppendsRegister : Obligations.PrnAppendsRegister := by
  refine fun s a => ⟨rfl, fun r hr => ⟨?_, stdout_concat s.out s.x[r]⟩, fun ha => ?_⟩
  · exact execPrn_next.mpr (.inl ⟨r, hr, rfl⟩)
  · exact ⟨⟨s.pc, some s.op, .registerIndex a⟩, rfl, rfl, execPrn_next.mpr (.inr ⟨ha, rfl⟩)⟩

/-- Settles O26: HLT's handler has the one answer, the engine steps only while RUNNING, and a fetch
from 254 or 255 faults. -/
theorem hltHaltsForGood : Obligations.HltHaltsForGood := by
  refine ⟨rfl, fun opA opB => decodeWith_ok.mpr ⟨.hlt, by decide, rfl⟩,
    fun s => ⟨_, execHlt_next.mpr rfl, rfl, rfl, fun m u hu => ?_⟩, fun s hs hpc => ?_⟩
  · have hrun : (s.halt.advance 1).state = .running := (stepWith_next.mp hu).1
    cases hrun
  · have hbeyond : 253 < s.pc := by omega
    exact ⟨_, fetchFaultsBeyond253 _ s hs hbeyond, rfl⟩

end Sys2Proof.Machine

namespace Sys2Proof.Machine

/-! The ALU: the result of each operation as a number or bit by bit, then what an RR instruction and
NOT answer. -/

@[simp] theorem toNat_mod256 (n : Nat) : (mod256 n).toNat = n % 256 := BitVec.toNat_ofNat n 8

theorem toNat_aluAdd (a b : Byte) : (aluAdd a b).toNat = (a.toNat + b.toNat) % 256 := toNat_mod256 _

theorem toNat_aluMul (a b : Byte) : (aluMul a b).toNat = (a.toNat * b.toNat) % 256 := toNat_mod256 _

theorem toNat_aluShl (a n : Byte) : (aluShl a n).toNat = (a.toNat * 2 ^ n.toNat) % 256 :=
  toNat_mod256 _

/-- A number no greater than some byte needs no reduction. -/
theorem toNat_mod256_of_le {n : Nat} {a : Byte} (h : n ≤ a.toNat) : (mod256 n).toNat = n :=
  (toNat_mod256 n).trans (Nat.mod_eq_of_lt (h.trans_lt a.isLt))

theorem toNat_aluShr (a n : Byte) : (aluShr a n).toNat = a.toNat / 2 ^ n.toNat :=
  toNat_mod256_of_le (Nat.div_le_self _ _)

theorem toNat_aluMod (a b : Byte) : (aluMod a b).toNat = a.toNat % b.toNat :=
  toNat_mod256_of_le (Nat.mod_le _ _)

theorem toNat_aluNot (a : Byte) : (aluNot a).toNat = 255 - a.toNat :=
  toNat_mod256_of_le (a := 255#8) (Nat.sub_le _ _)

theorem aluNot_aluNot (a : Byte) : aluNot (aluNot a) = a := by
  apply BitVec.eq_of_toNat_eq
  rw [toNat_aluNot, toNat_aluNot]
  omega

/-- 8 shifts and more leave a multiple of 256. -/
theorem aluShl_eq_zero {a n : Byte} (hn : 8 ≤ n.toNat) : aluShl a n = 0#8 := by
  have hdvd : 2 ^ 8 ∣ a.toNat * 2 ^ n.toNat := (pow_dvd_pow 2 hn).mul_left _
  exact BitVec.eq_of_toNat_eq ((toNat_aluShl a n).trans (Nat.mod_eq_zero_of_dvd hdvd))

/-- A byte is less than the divisor of 8 shifts and more. -/
theorem aluShr_eq_zero {a n : Byte} (hn : 8 ≤ n.toNat) : aluShr a n = 0#8 := by
  have hlt : a.toNat < 2 ^ n.toNat := a.isLt.trans_le (Nat.pow_le_pow_right (by decide) hn)
  exact BitVec.eq_of_toNat_eq ((toNat_aluShr a n).trans (Nat.div_eq_of_lt hlt))

theorem getLsbD_aluAnd (a b : Byte) (k : Nat) :
    (aluAnd a b).getLsbD k = (a.getLsbD k && b.getLsbD k) := BitVec.getLsbD_and

theorem getLsbD_aluOr (a b : Byte) (k : Nat) :
    (aluOr a b).getLsbD k = (a.getLsbD k || b.getLsbD k) := BitVec.getLsbD_or

theorem getLsbD_aluXor (a b : Byte) (k : Nat) :
    (aluXor a b).getLsbD k = (a.getLsbD k ^^ b.getLsbD k) := BitVec.getLsbD_xor

theorem cmpFlags_e (a b : Byte) : (cmpFlags a b).e = true ↔ a.toNat = b.toNat := decide_eq_true_iff

theorem cmpFlags_g (a b : Byte) : (cmpFlags a b).g = true ↔ a.toNat > b.toNat := decide_eq_true_iff

theorem cmpFlags_l (a b : Byte) : (cmpFlags a b).l = true ↔ a.toNat < b.toNat := decide_eq_true_iff

/-- Of the three comparisons exactly one holds. -/
theorem cmpFlags_exactly_one (a b : Byte) :
    (cmpFlags a b).e.toNat + (cmpFlags a b).g.toNat + (cmpFlags a b).l.toNat = 1 := by
  rcases Nat.lt_trichotomy a.toNat b.toNat with h | h | h
  · simp [cmpFlags, h, h.ne, h.le]
  · simp [cmpFlags, h]
  · simp [cmpFlags, h, h.ne', h.le]

theorem State.writeReg_x_same (s : State) (r : RegIndex) (v : Byte) : (s.writeReg r v).x[r] = v :=
  s.readReg_writeReg_same r v

/-- An operation other than CMP answers with its value in the destination. -/
theorem aluApply_of_value {operation : AluOp} {d src : RegIndex} {s : State} {v : Byte}
    (hv : operation.value s.x[d] s.x[src] = some v) (hmod : operation = .mod → s.x[src] ≠ 0#8) :
    aluApply operation d src s = .ok (s.writeReg d v) :=
  aluApply_ok.mpr (.inr ⟨fun h => hmod h.1 h.2, v, hv, rfl⟩)

theorem aluApply_cmp (d src : RegIndex) (s : State) :
    aluApply .cmp d src s = .ok (s.writeFlags (cmpFlags s.x[d] s.x[src])) :=
  aluApply_ok.mpr (.inl ⟨rfl, rfl⟩)

theorem exec_eq_aluRR {operation : AluOp} {a b : Byte} {i : Instr}
    (hi : operation.rrInstr a b = some i) (s : State) : exec i s = aluRR operation a b s := by
  cases operation with
  | add | mul | cmp | and | or | xor | shl | shr | mod => cases hi; rfl
  | not | other => cases hi

/-- What an RR instruction with a result answers: its value in register A, pc past it, the rest of the
state as before. -/
theorem exec_rr_of_value {operation : AluOp} {a b v : Byte} {d src : RegIndex} {s : State} {i : Instr}
    (hi : operation.rrInstr a b = some i) (ha : a.toNat = d.val) (hb : b.toNat = src.val)
    (hv : operation.value s.x[d] s.x[src] = some v) (hmod : operation = .mod → s.x[src] ≠ 0#8) :
    ∃ t, exec i s = .next t ∧ t.x[d] = v ∧
      t = { s with x := s.x.set d t.x[d], pc := s.pc + 3 } := by
  have hx : ((s.writeReg d v).advance 3).x[d] = v := s.writeReg_x_same d v
  refine ⟨(s.writeReg d v).advance 3, ?_, hx, by rw [hx]; rfl⟩
  rw [exec_eq_aluRR hi]
  exact aluRR_next.mpr (.inl ⟨d, src, _, ha, hb, aluApply_of_value hv hmod, rfl⟩)

theorem exec_not {a : Byte} {d : RegIndex} {s : State} (ha : a.toNat = d.val) :
    exec (.not a) s = .next ((s.writeReg d (aluNot s.x[d])).advance 2) :=
  execNot_next.mpr (.inl ⟨d, ha, rfl⟩)

/-- Settles O32: the complement of the complement is the register. -/
theorem notComplementsInPlace : Obligations.NotComplementsInPlace := by
  intro s a d ha
  have hx : ((s.writeReg d (aluNot s.x[d])).advance 2).x[d] = aluNot s.x[d] := s.writeReg_x_same d _
  refine ⟨_, exec_not ha, by rw [hx, toNat_aluNot], by rw [hx]; rfl, _, exec_not ha, ?_⟩
  rw [hx, aluNot_aluNot]
  simp

/-- Settles O33: by `toNat_aluShl`, and `aluShl_eq_zero` from 8 on. -/
theorem shlIsNotMasked : Obligations.ShlIsNotMasked := by
  intro s a b d src ha hb
  obtain ⟨t, ht, hx, hframe⟩ := exec_rr_of_value (operation := .shl) rfl ha hb rfl nofun
  exact ⟨t, ht, by rw [hx, toNat_aluShl], fun hn => hx.trans (aluShl_eq_zero hn), hframe⟩

/-- Settles O34: by `toNat_aluShr`, and `aluShr_eq_zero` from 8 on. -/
theorem shrIsLogicalAndNotMasked : Obligations.ShrIsLogicalAndNotMasked := by
  intro s a b d src ha hb
  obtain ⟨t, ht, hx, hframe⟩ := exec_rr_of_value (operation := .shr) rfl ha hb rfl nofun
  exact ⟨t, ht, by rw [hx, toNat_aluShr], fun hn => hx.trans (aluShr_eq_zero hn), hframe⟩

/-- Settles O35: CMP leaves `cmpFlags` in FL, of which exactly one is set. -/
theorem cmpSetsExactlyOneFlag : Obligations.CmpSetsExactlyOneFlag := by
  intro s a b d src ha hb
  have ht : exec (.cmp a b) s = .next ((s.writeFlags (cmpFlags s.x[d] s.x[src])).advance 3) :=
    aluRR_next.mpr (.inl ⟨d, src, _, ha, hb, aluApply_cmp d src s, rfl⟩)
  exact ⟨_, ht, cmpFlags_e _ _, cmpFlags_g _ _, cmpFlags_l _ _, cmpFlags_exactly_one _ _, rfl⟩

/-- What the ALU leaves alone: CMP all but FL, any other operation all but its destination. -/
theorem aluApply_frame {operation : AluOp} {d src : RegIndex} {s t : State}
    (h : aluApply operation d src s = .ok t) :
    if operation = .cmp then t = { s with fl := t.fl } else t = { s with x := s.x.set d t.x[d] } := by
  obtain ⟨rfl, rfl⟩ | ⟨-, v, hv, rfl⟩ := aluApply_ok.mp h
  · rfl
  · have hne : operation ≠ .cmp := by rintro rfl; cases hv
    rw [if_neg hne, State.writeReg_x_same]
    rfl

/-- Settles O36: the frame, then each operation's answer by the lemma on its result. -/
theorem aluWritesOnlyItsResult : Obligations.AluWritesOnlyItsResult := by
  refine ⟨fun _ _ _ _ _ h => aluApply_frame h, fun d src s => ?_⟩
  refine ⟨⟨_, aluApply_of_value rfl nofun, ?add⟩, ⟨_, aluApply_of_value rfl nofun, ?mul⟩,
    ⟨_, aluApply_cmp d src s, cmpFlags_e _ _, cmpFlags_g _ _, cmpFlags_l _ _⟩,
    ⟨_, aluApply_of_value rfl nofun, fun k => ?and⟩, ⟨_, aluApply_of_value rfl nofun, fun k => ?or⟩,
    ⟨_, aluApply_of_value rfl nofun, fun k => ?xor⟩, ⟨_, aluApply_of_value rfl nofun, ?not⟩,
    ⟨_, aluApply_of_value rfl nofun, ?shl⟩, ⟨_, aluApply_of_value rfl nofun, ?shr⟩,
    fun hsrc => ⟨_, aluApply_of_value rfl fun _ => hsrc, ?mod⟩⟩
  all_goals rw [State.writeReg_x_same]
  case add => exact toNat_aluAdd _ _
  case mul => exact toNat_aluMul _ _
  case and => exact getLsbD_aluAnd _ _ k
  case or => exact getLsbD_aluOr _ _ k
  case xor => exact getLsbD_aluXor _ _ k
  case not => exact toNat_aluNot _
  case shl => exact toNat_aluShl _ _
  case shr => exact toNat_mod256 _
  case mod => exact toNat_aluMod _ _

/-- Settles O27: by `toNat_aluAdd`. -/
theorem addWrapsModulo256 : Obligations.AddWrapsModulo256 := by
  intro s a b d src ha hb
  obtain ⟨t, ht, hx, hframe⟩ := exec_rr_of_value (operation := .add) rfl ha hb rfl nofun
  exact ⟨t, ht, by rw [hx, toNat_aluAdd], hframe⟩

/-- Settles O28: by `toNat_aluMul`. -/
theorem mulKeepsLowByte : Obligations.MulKeepsLowByte := by
  intro s a b d src ha hb
  obtain ⟨t, ht, hx, hframe⟩ := exec_rr_of_value (operation := .mul) rfl ha hb rfl nofun
  exact ⟨t, ht, by rw [hx, toNat_aluMul], hframe⟩

/-- Settles O29: the remainder is less than a divisor that is not 0. -/
theorem modIsTheRemainder : Obligations.ModIsTheRemainder := by
  intro s a b d src ha hb hsrc
  obtain ⟨t, ht, hx, hframe⟩ := exec_rr_of_value (operation := .mod) rfl ha hb rfl fun _ => hsrc
  have hrem : t.x[d].toNat = s.x[d].toNat % s.x[src].toNat := by rw [hx, toNat_aluMod]
  have hpos : 0 < s.x[src].toNat := by bv_omega
  exact ⟨t, ht, hrem, hrem ▸ Nat.mod_lt _ hpos, hframe⟩

/-- Settles O31: each of the three by its lemma on one bit. -/
theorem bitwiseResults : Obligations.BitwiseResults := by
  intro s a b d src ha hb
  refine ⟨?and, ?or, ?xor⟩
  case and =>
    obtain ⟨t, ht, hx, hframe⟩ := exec_rr_of_value (operation := .and) rfl ha hb rfl nofun
    exact ⟨t, ht, fun k => by rw [hx, getLsbD_aluAnd], hframe⟩
  case or =>
    obtain ⟨t, ht, hx, hframe⟩ := exec_rr_of_value (operation := .or) rfl ha hb rfl nofun
    exact ⟨t, ht, fun k => by rw [hx, getLsbD_aluOr], hframe⟩
  case xor =>
    obtain ⟨t, ht, hx, hframe⟩ := exec_rr_of_value (operation := .xor) rfl ha hb rfl nofun
    exact ⟨t, ht, fun k => by rw [hx, getLsbD_aluXor], hframe⟩

end Sys2Proof.Machine

namespace Sys2Proof.Machine

/-! The stack: what PUSH and POP answer where SP stays a byte, and the fault where it would not. -/

/-- The byte SP points to (R72, R75). -/
def State.stackTop (s : State) : Byte := Memory.read s.mem s.sp.toNat

@[simp] theorem State.writeReg_readReg (s : State) (r : RegIndex) :
    s.writeReg r (s.readReg r) = s := by
  simp [State.writeReg, State.readReg]

@[simp] theorem State.writeReg_writeReg (s : State) (r : RegIndex) (v w : Byte) :
    (s.writeReg r v).writeReg r w = s.writeReg r w := by
  simp [State.writeReg]

/-- SP after a register write: R7 is SP, any other register is not (R10). -/
theorem State.sp_writeReg (s : State) (r : RegIndex) (v : Byte) :
    (s.writeReg r v).sp = if r.val = 7 then v else s.x[7] := by
  simp only [State.sp, State.readReg_writeReg, Fin.ext_iff, eq_comm (a := spIndex.val)]
  rfl

/-- POP into a register: it raises SP as it stands after the register is written (D9), where that is
not 255. -/
theorem exec_pop {a base : Byte} {r : RegIndex} {s : State} (ha : a.toNat = r.val)
    (hsp : (s.writeReg r s.stackTop).sp = base) (hne : base ≠ 255#8) :
    exec (.pop a) s =
      .next (((s.writeReg r s.stackTop).writeReg spIndex (base + 1#8)).advance 2) := by
  subst hsp
  exact execPop_next.mpr (.inl ⟨r, _, ha, rfl, hne, rfl⟩)

theorem toNat_sub_one_add_one {v : Byte} (hv : v ≠ 0#8) : (v - 1#8).toNat + 1 = v.toNat := by
  bv_omega

/-- SP lowered by a push has room for a pop. -/
theorem sub_one_ne_255 {v : Byte} (hv : v ≠ 0#8) : v - 1#8 ≠ 255#8 := by bv_omega

/-- SP below 255 is raised without a wrap. -/
theorem toNat_add_one {v : Byte} (hv : v ≠ 255#8) : (v + 1#8).toNat = v.toNat + 1 := by bv_omega

/-- A byte that was pushed is the one SP points to. -/
theorem State.stackTop_pushByte {s : State} (hmem : s.mem.wf = true) (hsp : s.sp ≠ 0#8) (v : Byte) :
    (s.pushByte v).stackTop = v := by
  have htop : (s.pushByte v).sp = s.sp - 1#8 := s.sp_writeReg_sp _
  rw [State.stackTop, htop, State.read_pushByte hmem hsp, if_pos (toNat_sub_one hsp)]

/-- Settles O37: the byte stored is the register's as it stands in the answer, read by
`State.read_pushByte`. -/
theorem pushStoresBelowTheStackPointer : Obligations.PushStoresBelowTheStackPointer := by
  intro s a r ha hsp hmem
  let v := (s.writeReg spIndex (s.sp - 1#8)).readReg r
  let t := (s.pushByte v).advance 2
  have hx : t.x[7] = s.sp - 1#8 := s.writeReg_x_same spIndex _
  have hread : ∀ c, Memory.read t.mem c = if c = s.x[7].toNat - 1 then v else Memory.read s.mem c :=
    State.read_pushByte hmem hsp v
  refine ⟨t, exec_push ha hsp, ?sp, ?stored, fun c hc => ?others, ?frame⟩
  case sp =>
    rw [hx]
    exact toNat_sub_one_add_one hsp
  case stored => exact (hread _).trans (if_pos rfl)
  case others => exact (hread c).trans (if_neg hc)
  case frame => rw [hx]; rfl

/-- Settles O38: `exec_pop`, with the base as SP after the register is written. -/
theorem popLoadsFromTheStackPointer : Obligations.PopLoadsFromTheStackPointer := by
  rintro s a r _ base ha rfl hbase hne
  let loaded := s.writeReg r s.stackTop
  let t := (loaded.writeReg spIndex (base + 1#8)).advance 2
  have hsp : loaded.sp = base := (s.sp_writeReg r _).trans hbase.symm
  have hx : t.x[7] = base + 1#8 := loaded.writeReg_x_same spIndex _
  have hloaded : r.val ≠ 7 → t.x[r] = s.stackTop := fun hr =>
    (loaded.readReg_writeReg_ne _ (Fin.ne_of_val_ne hr)).trans (s.readReg_writeReg_same r _)
  refine ⟨t, exec_pop ha hsp hne, by rw [hx, toNat_add_one hne], hloaded, ?frame⟩
  have hfile : t.x = (s.x.set r t.x[r]).set 7 (base + 1#8) := by
    by_cases h7 : r.val = 7
    · obtain rfl : r = spIndex := Fin.ext h7
      exact (Vector.set_set ..).trans (Vector.set_set ..).symm
    · rw [hloaded h7]
      rfl
  rw [hx, ← hfile]
  rfl

/-- Settles O39: each handler's fault branch, in `execPush_next` and its like. -/
theorem stackPointerNeverWraps : Obligations.StackPointerNeverWraps := by
  intro s a r ha
  refine ⟨?low, fun hsp => ?popHigh, fun hsp => ?retHigh⟩
  case low =>
    rintro hsp i (rfl | rfl)
    · exact execPush_next.mpr (.inr ⟨_, rfl, .inr ⟨ha ▸ r.isLt, hsp, rfl⟩⟩)
    · exact execCall_next.mpr (.inr ⟨_, rfl, .inr ⟨ha ▸ r.isLt, hsp, rfl⟩⟩)
  case popHigh =>
    exact execPop_next.mpr (.inr ⟨_, rfl, .inr ⟨r, ha, (s.sp_writeReg r _).trans hsp, rfl⟩⟩)
  case retHigh => exact execRet_next.mpr (.inr ⟨hsp, rfl⟩)

/-- Settles O40: the byte POP reads is the register's own after PUSH, so that writing it back changes
nothing and SP alone moves. -/
theorem pushPopRoundTrip : Obligations.PushPopRoundTrip := by
  intro s a r ha hsp hmem
  let v := (s.writeReg spIndex (s.sp - 1#8)).readReg r
  let t := (s.pushByte v).advance 2
  have htop : t.stackTop = t.readReg r := State.stackTop_pushByte hmem hsp v
  have hself : t.writeReg r t.stackTop = t := by rw [htop, State.writeReg_readReg]
  have htsp : t.sp = s.sp - 1#8 := s.sp_writeReg_sp _
  have hpop := exec_pop (s := t) ha ((congrArg State.sp hself).trans htsp) (sub_one_ne_255 hsp)
  rw [hself, BitVec.sub_add_cancel] at hpop
  refine ⟨t, _, exec_push ha hsp, hpop, ?_⟩
  have hback : (s.writeReg spIndex (s.sp - 1#8)).writeReg spIndex s.sp = s :=
    (s.writeReg_writeReg spIndex _ _).trans (s.writeReg_readReg spIndex)
  have hx : (t.writeReg spIndex s.sp).x = s.x := (congrArg State.x hback :)
  rw [← hx]
  rfl

end Sys2Proof.Machine

namespace Sys2Proof.Machine

/-! Control transfer: where CALL, RET and the jumps leave pc, and what they change besides. -/

/-- The address after a CALL that was fetched fits one byte (R74). -/
theorem toNat_returnAddress {pc : Nat} (hpc : pc ≤ 253) : (mod256 (pc + 2)).toNat = pc + 2 := by
  rw [toNat_mod256, Nat.mod_eq_of_lt (by omega)]

/-- RET, with SP below 255. -/
theorem exec_ret {s : State} (hsp : s.sp ≠ 255#8) :
    exec .ret s = .next ((s.writeReg spIndex (s.sp + 1#8)).jump s.stackTop) :=
  execRet_next.mpr (.inl ⟨hsp, rfl⟩)

/-- A jump that is taken, or else pc moved past the two bytes of the instruction (R77, R78). -/
def State.branchIf (s : State) (taken : Bool) (target : Byte) : State :=
  if taken then s.jump target else s.advance 2

theorem State.branchIf_frame (s : State) (taken : Bool) (target : Byte) :
    s.branchIf taken target = { s with pc := (s.branchIf taken target).pc } := by
  cases taken with
  | true => rfl
  | false => rfl

theorem State.branchIf_pc_of_taken (s : State) {taken : Bool} (target : Byte) (h : taken = true) :
    (s.branchIf taken target).pc = target.toNat := by
  subst h
  rfl

theorem State.branchIf_pc_of_not_taken (s : State) {taken : Bool} (target : Byte)
    (h : taken = false) : (s.branchIf taken target).pc = s.pc + 2 := by
  subst h
  rfl

theorem exec_jeq {a : Byte} {r : RegIndex} {s : State} (ha : a.toNat = r.val) :
    exec (.jeq a) s = .next (s.branchIf s.fl.e s.x[r]) :=
  execJeq_next.mpr (.inl ⟨r, ha, rfl⟩)

theorem exec_jne {a : Byte} {r : RegIndex} {s : State} (ha : a.toNat = r.val) :
    exec (.jne a) s = .next (s.branchIf (!s.fl.e) s.x[r]) := by
  refine execJne_next.mpr (.inl ⟨r, ha, ?_⟩)
  cases s.fl.e with
  | true => rfl
  | false => rfl

/-- Settles O41: the byte stored is the return address, read by `State.read_pushByte`, and the target
is the register as it stands in the answer. -/
theorem callPushesTheReturnAddress : Obligations.CallPushesTheReturnAddress := by
  intro s a r ha hsp hmem hpc
  let t := (s.pushByte (mod256 (s.pc + 2))).jump ((s.writeReg spIndex (s.sp - 1#8)).readReg r)
  have hx : t.x[7] = s.sp - 1#8 := s.writeReg_x_same spIndex _
  have hread : ∀ c, Memory.read t.mem c =
      if c = s.x[7].toNat - 1 then mod256 (s.pc + 2) else Memory.read s.mem c :=
    State.read_pushByte hmem hsp _
  refine ⟨t, exec_call ha hsp, ?sp, ?stored, fun c hc => ?others, ?frame⟩
  case sp =>
    rw [hx]
    exact toNat_sub_one_add_one hsp
  case stored => rw [hread, if_pos rfl, toNat_returnAddress hpc]
  case others => exact (hread c).trans (if_neg hc)
  case frame => rw [hx]; rfl

/-- Settles O42: `exec_ret`, and SP below 255 is raised without a wrap. -/
theorem retPopsTheProgramCounter : Obligations.RetPopsTheProgramCounter := by
  intro s hsp
  let t := (s.writeReg spIndex (s.sp + 1#8)).jump s.stackTop
  have hx : t.x[7] = s.sp + 1#8 := s.writeReg_x_same spIndex _
  refine ⟨t, exec_ret hsp, ?sp, ?frame⟩
  case sp =>
    rw [hx]
    exact toNat_add_one hsp
  case frame => rw [hx]; rfl

/-- Settles O43: the byte at the top of the later state's stack is the one the CALL pushed. -/
theorem callThenRetReturns : Obligations.CallThenRetReturns := by
  intro s a r ha hsp hmem hpc
  refine ⟨_, exec_call ha hsp, fun u husp hubyte => ?_⟩
  have hlow : u.sp = s.sp - 1#8 := husp.trans (s.sp_writeReg_sp _)
  have htop : u.stackTop = mod256 (s.pc + 2) :=
    calc u.stackTop
      _ = (s.pushByte (mod256 (s.pc + 2))).stackTop :=
        (congrArg (fun v : Byte => Memory.read u.mem v.toNat) husp).trans hubyte
      _ = mod256 (s.pc + 2) := State.stackTop_pushByte hmem hsp _
  refine ⟨_, exec_ret (hlow ▸ sub_one_ne_255 hsp), ?pc, ?sp⟩
  case pc => rw [State.jump_pc, htop, toNat_returnAddress hpc]
  case sp =>
    calc (u.writeReg spIndex (u.sp + 1#8)).sp
      _ = u.sp + 1#8 := u.sp_writeReg_sp _
      _ = s.sp := by rw [hlow, BitVec.sub_add_cancel]

/-- Settles O44: the case of JMP's handler where the operand names a register. -/
theorem jmpJumpsToTheRegister : Obligations.JmpJumpsToTheRegister :=
  fun _ _ r ha => execJmp_next.mpr (.inl ⟨r, ha, rfl⟩)

/-- Settles O45: both are a branch, JEQ's taken when E is set and JNE's when it is clear. -/
theorem jeqAndJneTestEqualBit : Obligations.JeqAndJneTestEqualBit := by
  refine fun s a r ha => ⟨?jeq, ?jne⟩
  case jeq =>
    exact ⟨_, exec_jeq ha, s.branchIf_frame _ _, s.branchIf_pc_of_taken _,
      s.branchIf_pc_of_not_taken _⟩
  case jne =>
    exact ⟨_, exec_jne ha, s.branchIf_frame _ _,
      fun he => s.branchIf_pc_of_taken _ (by rw [he]; rfl),
      fun he => s.branchIf_pc_of_not_taken _ (by rw [he]; rfl)⟩

end Sys2Proof.Machine

namespace Sys2Proof.Machine

/-! Faults: every way a step ends FAULTED, and that the engine stops there. -/

/-- The engine takes no step in FAULTED (R16, R47). -/
theorem stepWith_ne_next_of_faulted {t : State} (ht : t.state = .faulted) (m : OpcodeMap)
    (u : State) : stepWith m t ≠ .next u := by
  intro hu
  have hrun : t.state = .running := (stepWith_next.mp hu).1
  cases ht.symm.trans hrun

/-- Bytes that decode begin with an opcode byte of the map. -/
theorem not_illegal_of_decodeWith {m : OpcodeMap} {op opA opB : Byte} {i : Instr}
    (hi : decodeWith m op opA opB = .ok i) : ¬ ∀ k, m k ≠ op := by
  obtain ⟨k, hk, -⟩ := decodeWith_ok.mp hi
  exact fun hne => hne k (OpcodeMap.lookup_some hk)

/-- What dispatch and the handler raise after a successful fetch from `s`: the opcode byte has no
entry, or it is an instruction that raises a fault (R49, R50). -/
inductive DispatchRaised (m : OpcodeMap) (s : State) : FaultDetail → Prop where
  | opcode (hk : ∀ k, m k ≠ s.fetched.op) : DispatchRaised m s (.opcode s.fetched.op)
  | handler {i : Instr} {d : FaultDetail}
      (hi : decodeWith m s.fetched.op s.fetched.opA s.fetched.opB = .ok i)
      (hd : Raised i s.fetched d) : DispatchRaised m s d

/-- Everything a step that ends FAULTED has done: the fetch faulted, or it succeeded and dispatch or
the handler raised a fault, which is all that is delivered (R88). -/
theorem stepWith_faulted {m : OpcodeMap} {s t : State} (h : stepWith m s = .next t)
    (ht : t.state = .faulted) :
    (253 < s.pc ∧ t = s.takeFault none (.memoryIndex (max 256 s.pc))) ∨
    (s.pc ≤ 253 ∧ ∃ d, DispatchRaised m s d ∧ t = s.fetched.takeFault (some s.fetched.op) d) := by
  obtain ⟨hs, hfetch | ⟨hpc, hk, rfl⟩ | ⟨hpc, i, hi, hexec⟩⟩ := stepWith_next.mp h
  · exact .inl hfetch
  · exact .inr ⟨hpc, _, .opcode hk, rfl⟩
  · cases exec_answer hexec with
    | effect _ he =>
      have hs' : s.fetched.state ≠ .faulted := fun hf => by cases hs.symm.trans hf
      exact absurd ht (he.state_ne_faulted hs')
    | fault hd => exact .inr ⟨hpc, _, .handler hi hd, rfl⟩

/-- No step raises UnsupportedOperation: only the ALU could, and no instruction passes it a name
outside its table (R84). -/
theorem DispatchRaised.kind_ne_unsupportedOperation {m : OpcodeMap} {s : State} {d : FaultDetail}
    (h : DispatchRaised m s d) : d.kind ≠ .unsupportedOperation := by
  cases h with
  | opcode => nofun
  | handler _ hd => cases hd <;> nofun

/-- Settles O11: the second way of a step, dispatch without an entry. -/
theorem illegalOpcodeEndsTheRun : Obligations.IllegalOpcodeEndsTheRun := by
  intro m s hs hpc hk
  exact ⟨_, _, stepWith_next.mpr ⟨hs, .inr (.inl ⟨hpc, hk, rfl⟩)⟩, rfl, rfl, rfl, rfl, rfl, rfl,
    stepWith_ne_next_of_faulted rfl⟩

/-- Settles O13: both kinds of faulting step take the fault in the state they started from, or in that
state with the fetched bytes latched. -/
theorem faultsArePrecise : Obligations.FaultsArePrecise := by
  intro m s t h ht
  obtain ⟨hpc, rfl⟩ | ⟨hpc, d, -, rfl⟩ := stepWith_faulted h ht
  · have hno : ¬ s.pc ≤ 253 := by omega
    exact ⟨rfl, fun _ => ⟨rfl, rfl, rfl, rfl⟩, _, rfl, rfl, (if_neg hno).symm⟩
  · exact ⟨rfl, fun hgt => by omega, _, rfl, rfl, (if_pos hpc).symm⟩

/-- Settles O14: a fetch fault excludes dispatch, a byte without an entry excludes a handler, and
within a handler `Raised` puts the register bytes first. -/
theorem faultsComeInPriorityOrder : Obligations.FaultsComeInPriorityOrder := by
  intro m s t r h ht hr
  obtain ⟨hpc, rfl⟩ | ⟨hpc, d, hd, rfl⟩ := stepWith_faulted h ht <;> cases hr
  · exact ⟨fun _ => ⟨_, rfl⟩, fun hle => by omega⟩
  · refine ⟨fun hgt => by omega, fun _ => ?_⟩
    cases hd with
    | opcode hk =>
      exact ⟨fun _ => rfl, fun i hi => absurd hk (not_illegal_of_decodeWith hi)⟩
    | @handler i _ hi hd =>
      refine ⟨fun hk => absurd hk (not_illegal_of_decodeWith hi), fun j hj => ?_⟩
      obtain rfl : i = j := Except.ok.inj (hi.symm.trans hj)
      rw [← badRegister]
      cases hd with
      | register hreg => rw [hreg]
      | divisor hreg hi hb => rw [hreg]; exact .inl ⟨_, _, _, hi, rfl, hb⟩
      | stackLow hreg hi => rw [hreg]; exact .inr (.inl ⟨_, hi, rfl⟩)
      | stackHigh hreg hi =>
        rw [hreg]
        obtain ⟨a, hi⟩ | hi := hi
        · exact .inr (.inr ⟨a, .inl hi, rfl⟩)
        · exact .inr (.inr ⟨0, .inr hi, rfl⟩)

/-- Settles O16: no step's fault is of that kind, and the ALU's own answer is delivered as a fault. -/
theorem unsupportedOperationNeverRaised : Obligations.UnsupportedOperationNeverRaised := by
  refine ⟨fun m s t r h ht hr => ?_, fun name d src s =>
    ⟨rfl, rfl, _, rfl, rfl, stepWith_ne_next_of_faulted rfl⟩⟩
  obtain ⟨-, rfl⟩ | ⟨-, d, hd, rfl⟩ := stepWith_faulted h ht <;> cases hr
  · nofun
  · exact hd.kind_ne_unsupportedOperation

/-- Settles O30: both operands name registers, so the fault left is the ALU's for the divisor. -/
theorem modByZeroIsFatal : Obligations.ModByZeroIsFatal := by
  intro s a b d src ha hb hzero
  have hfault : aluApply .mod d src s = .error (.divisorRegister src) :=
    aluApply_error.mpr (.inl ⟨rfl, hzero, rfl⟩)
  exact ⟨_, _, aluRR_next.mpr (.inr ⟨_, rfl, .inr (.inr ⟨d, src, ha, hb, hfault⟩)⟩),
    rfl, rfl, rfl, rfl, rfl, stepWith_ne_next_of_faulted rfl⟩

/-- Settles O52: the fetch appends the record, and no handler touches the trace. -/
theorem traceRecordsEachFetch : Obligations.TraceRecordsEachFetch := by
  intro m s t h
  obtain ⟨-, ⟨hpc, rfl⟩ | ⟨hpc, -, rfl⟩ | ⟨hpc, i, -, hexec⟩⟩ := stepWith_next.mp h
  · rw [if_neg (by omega), List.append_nil]
    rfl
  · rw [if_pos hpc]
    rfl
  · obtain ⟨-, -, -, htrace, -⟩ := handlersKeepLatchesAndEngineState i s.fetched t hexec
    rw [if_pos hpc, htrace]
    rfl

/-! The host's view of a failure: a load that fails, and the exit status of a run. -/

theorem loadLine_error {line : List Char} {d : FaultDetail} (h : loadLine line = .error d) :
    d = .line line := by
  simp only [loadLine] at h
  split_ifs at h <;> cases h <;> rfl

/-- Loading from an address in 0..256 fails at one of the lines, or at the first literal that would
lie at 256. -/
theorem loadLines_error {lines : List (List Char)} {next : Nat} {mem : Memory} {d : FaultDetail}
    (hnext : next ≤ 256) (h : loadLines lines next mem = .error d) :
    (∃ l ∈ lines, d = .line l) ∨ d = .memoryIndex 256 := by
  induction lines generalizing next mem with
  | nil => cases h
  | cons line lines ih =>
    have later {next' : Nat} {mem' : Memory} (hnext' : next' ≤ 256)
        (h' : loadLines lines next' mem' = .error d) :
        (∃ l ∈ line :: lines, d = .line l) ∨ d = .memoryIndex 256 :=
      (ih hnext' h').imp_left fun ⟨l, hl, hd⟩ => ⟨l, List.mem_cons_of_mem _ hl, hd⟩
    unfold loadLines at h
    split at h
    · next hline =>
      cases h
      exact .inl ⟨line, List.mem_cons_self, loadLine_error hline⟩
    · exact later hnext h
    · split at h
      · cases h
        exact .inr (congrArg _ (by omega))
      · exact later (by omega) h

/-- Settles O58: `loadLines_error` from address 0. -/
theorem loadFailsInThreeWays : Obligations.LoadFailsInThreeWays := by
  refine ⟨rfl, rfl, fun text d h => ?_⟩
  obtain ⟨l, hl, rfl⟩ | rfl := loadLines_error (Nat.zero_le 256) h
  · exact .inl ⟨rfl, l, hl, rfl⟩
  · exact .inr ⟨rfl, rfl⟩

theorem exitStatusFault_ne_zero : Config.exitStatusFault ≠ 0 := Nat.succ_ne_zero _

/-- Settles O54: by the engine state; EXIT_STATUS_FAULT is not 0. -/
theorem exitStatusIsZeroExactlyAfterHalt : Obligations.ExitStatusIsZeroExactlyAfterHalt := by
  intro s
  cases hs : s.state with
  | running => simp [exitStatus, hs]
  | halted => simp [exitStatus, hs]
  | faulted => simp [exitStatus, hs, exitStatusFault_ne_zero]

end Sys2Proof.Machine

namespace Sys2Proof.Machine

/-! The start of a run: the reset state with what the load gives (R102). -/

theorem boot_of_load_ok {source : Option (List Char)} {mem : Memory} (h : load source = .ok mem) :
    boot source = .ok { State.reset with mem := mem } := by
  simp [boot, h]

theorem boot_of_load_error {source : Option (List Char)} {d : FaultDetail}
    (h : load source = .error d) : boot source = .error d := by
  simp [boot, h]

/-- Settles O3: by whether the load succeeds; the invariant is `boot_inv`. -/
theorem bootedStateMeetsInvariant : Obligations.BootedStateMeetsInvariant := by
  refine fun source => ⟨fun s hs => ⟨boot_inv hs, ?_⟩, fun _ => boot_of_load_ok,
    fun _ => boot_of_load_error⟩
  cases hload : load source with
  | error d => cases (boot_of_load_error hload).symm.trans hs
  | ok mem =>
    cases (boot_of_load_ok hload).symm.trans hs
    exact ⟨rfl, rfl⟩

/-! The end of a run (R104): it is in a state without a step, so that a run has at most one. -/

/-- The run from `s` ends in `t`, HALTED or FAULTED. -/
def Ends (s t : State) : Prop := ∃ n, RunsTo n s t ∧ t.state ≠ .running

theorem Finishes.ends {s t : State} : Finishes s t → Ends s t :=
  fun ⟨n, hrun, ht⟩ => ⟨n, hrun, by simp [ht]⟩

theorem Fails.ends {s t : State} : Fails s t → Ends s t :=
  fun ⟨n, hrun, ht⟩ => ⟨n, hrun, by simp [ht]⟩

theorem Ends.finishes_or_fails {s t : State} : Ends s t → Finishes s t ∨ Fails s t := by
  rintro ⟨n, hrun, ht⟩
  cases hs : t.state with
  | running => exact absurd hs ht
  | halted => exact .inl ⟨n, hrun, hs⟩
  | faulted => exact .inr ⟨n, hrun, hs⟩

/-- No run of the same start takes more steps than one that ended. -/
theorem RunsTo.le_of_not_running {n k : Nat} {s t u : State} (hrun : RunsTo n s t)
    (ht : t.state ≠ .running) (hrun' : RunsTo k s u) : k ≤ n := by
  induction n generalizing s k with
  | zero =>
    obtain rfl : s = t := hrun
    cases k with
    | zero => exact le_rfl
    | succ k =>
      obtain ⟨v, hv, -⟩ := hrun'
      exact absurd (stepWith_next.mp hv).1 ht
  | succ n ih =>
    cases k with
    | zero => exact Nat.zero_le _
    | succ k =>
      obtain ⟨v, hv, hrun⟩ := hrun
      obtain ⟨w, hw, hrun'⟩ := hrun'
      obtain rfl : v = w := Host.Outcome.next.inj (hv.symm.trans hw)
      exact Nat.succ_le_succ (ih hrun hrun')

theorem Ends.unique {s t u : State} : Ends s t → Ends s u → t = u := by
  rintro ⟨n, hrun, ht⟩ ⟨k, hrun', hu⟩
  obtain rfl : n = k :=
    le_antisymm (hrun'.le_of_not_running hu hrun) (hrun.le_of_not_running ht hrun')
  exact runsTo_det hrun hrun'

theorem Ends.not_hangs {s t : State} : Ends s t → ¬ Hangs s := by
  rintro ⟨n, hrun, ht⟩ hhang
  obtain ⟨u, hrun', -⟩ := hhang (n + 1)
  exact Nat.not_succ_le_self n (hrun.le_of_not_running ht hrun')

/-- While a run has not ended it has a further step. -/
theorem ends_or_running (n : Nat) {s : State} (hs : s.state = .running) :
    (∃ t, Ends s t) ∨ ∃ t, RunsTo n s t ∧ t.state = .running := by
  induction n generalizing s with
  | zero => exact .inr ⟨s, rfl, hs⟩
  | succ n ih =>
    obtain ⟨u, hu⟩ := stepWith_answers Config.opcodeMap hs
    by_cases hstate : u.state = .running
    · refine (ih hstate).imp ?_ ?_
      · rintro ⟨t, k, hrun, ht⟩
        exact ⟨t, k + 1, ⟨u, hu, hrun⟩, ht⟩
      · rintro ⟨t, hrun, ht⟩
        exact ⟨t, ⟨u, hu, hrun⟩, ht⟩
    · exact .inl ⟨u, 1, ⟨u, hu, rfl⟩, hstate⟩

theorem ends_or_hangs {s : State} (hs : s.state = .running) : (∃ t, Ends s t) ∨ Hangs s :=
  or_iff_not_imp_left.mpr fun hend n => (ends_or_running n hs).resolve_left hend

/-- Settles O7: a run that does not hang ends (`ends_or_hangs`), and in one state (`Ends.unique`). -/
theorem runEndsInExactlyOneOfThreeWays : Obligations.RunEndsInExactlyOneOfThreeWays := by
  refine fun s hs => ⟨?_, ?_, fun t h => h.1.ends.not_hangs h.2, fun t h => h.1.ends.not_hangs h.2,
    fun t u ht hu => ht.ends.unique hu.ends, fun t u ht hu => ht.ends.unique hu.ends⟩
  · obtain ⟨t, hend⟩ | hhang := ends_or_hangs hs
    · exact hend.finishes_or_fails.imp (⟨t, ·⟩) (.inl ⟨t, ·⟩)
    · exact .inr (.inr hhang)
  · rintro t u ⟨hfin, hfail⟩
    obtain rfl := hfin.ends.unique hfail.ends
    obtain ⟨-, -, hhalted⟩ := hfin
    obtain ⟨-, -, hfaulted⟩ := hfail
    cases hhalted.symm.trans hfaulted

/-- Settles O53: LDI's effect (O24) read back by PRN's (O25). -/
theorem ldiThenPrnPrintsTheDecimalString : Obligations.LdiThenPrnPrintsTheDecimalString := by
  intro s a v ha
  obtain ⟨r, hr⟩ : ∃ r : RegIndex, a.toNat = r.val := ⟨⟨_, ha⟩, rfl⟩
  obtain ⟨-, hldi, -⟩ := ldiLoadsImmediate s a v
  obtain ⟨-, hprn, -⟩ := prnAppendsRegister { s with x := s.x.set r v, pc := s.pc + 3 } a
  obtain ⟨hexec, hout⟩ := hprn r hr
  exact ⟨_, _, hldi r hr, hexec, by simpa using hout⟩

end Sys2Proof.Machine

namespace Sys2Proof.Machine

/-! Lines of a program file: the text that takes effect (R100). -/

theorem isWhitespace_iff {c : Char} :
    c.isWhitespace = true ↔ c = ' ' ∨ c = '\t' ∨ c = '\r' ∨ c = '\n' := by
  simp [Char.isWhitespace, or_assoc]

theorem trim_append_left {blank : List Char} (hblank : ∀ c ∈ blank, c.isWhitespace = true)
    (cs : List Char) : trim (blank ++ cs) = trim cs := by
  rw [trim, List.dropWhile_append_of_pos hblank, trim]

theorem trim_append_right {blank : List Char} (hblank : ∀ c ∈ blank, c.isWhitespace = true)
    (cs : List Char) : trim (cs ++ blank) = trim cs := by
  have hnone : blank.dropWhile Char.isWhitespace = [] := List.dropWhile_eq_nil_iff.mpr hblank
  rw [trim, trim, List.dropWhile_append]
  split
  · next hcs => rw [List.isEmpty_iff.mp hcs, hnone]
  · rw [List.reverse_append, List.dropWhile_append_of_pos (by simpa using hblank)]

theorem trim_whitespace {blank : List Char} (hblank : ∀ c ∈ blank, c.isWhitespace = true) :
    trim blank = [] := by
  simpa [trim] using trim_append_left hblank []

/-- A comment, or none, takes no effect. -/
theorem effectiveText_append {cs tail : List Char} (hcs : ∀ c ∈ cs, c ≠ '#')
    (htail : tail = [] ∨ ∃ comment, tail = '#' :: comment) :
    effectiveText (cs ++ tail) = trim cs := by
  have hcut : tail.takeWhile (· != '#') = [] := by
    obtain rfl | ⟨comment, rfl⟩ := htail
    · rfl
    · exact List.takeWhile_cons_of_neg (by decide)
  rw [effectiveText, List.takeWhile_append_of_pos (by simpa using hcs), hcut, List.append_nil]

theorem ne_hash_of_isWhitespace {c : Char} (h : c.isWhitespace = true) : c ≠ '#' := by
  rintro rfl
  exact absurd h (by decide)

/-! What a line is read as, by its effective text. -/

theorem loadLine_of_ineffective {line : List Char} (h : effectiveText line = []) :
    loadLine line = .ok none := by
  simp [loadLine, h]

theorem loadLine_of_digits {line text : List Char} (h : effectiveText line = text) (hne : text ≠ [])
    (hdigits : ∀ c ∈ text, c = '0' ∨ c = '1') :
    loadLine line = if binaryValue text ≤ 255 then .ok (some (BitVec.ofNat 8 (binaryValue text)))
      else .error (.line line) := by
  have hall : text.all (fun c => c == '0' || c == '1') = true := by simpa using hdigits
  simp only [loadLine, h, if_neg hne, if_pos hall, mod256, gt_iff_lt, ← not_le, ite_not]

theorem loadLine_of_not_digits {line text : List Char} (h : effectiveText line = text)
    (hother : ∃ c ∈ text, c ≠ '0' ∧ c ≠ '1') : loadLine line = .error (.line line) := by
  have hne : text ≠ [] := by
    rintro rfl
    simp at hother
  have hall : ¬ text.all (fun c => c == '0' || c == '1') = true := by simpa using hother
  simp only [loadLine, h, if_neg hne, if_neg hall]

theorem binaryValue_eq_ofDigits (cs : List Char) :
    binaryValue cs = Nat.ofDigits 2 (cs.reverse.map fun c => if c = '1' then 1 else 0) := by
  rw [Nat.ofDigits_eq_foldr, List.foldr_map, List.foldr_reverse, binaryValue]
  simp only [Nat.cast_id, Nat.cast_ite, Nat.add_comm]

/-- Settles O57: the effective text of such a line is the text itself. -/
theorem lineIsReadByItsLiteral : Obligations.LineIsReadByItsLiteral := by
  intro lead text trail tail line hblank hne hhash hends htail hline
  have hblank (c) (hc : c ∈ lead ++ trail) : c.isWhitespace = true :=
    isWhitespace_iff.mpr (hblank c hc)
  have hlead (c) (hc : c ∈ lead) := hblank c (List.mem_append_left _ hc)
  have htrail (c) (hc : c ∈ trail) := hblank c (List.mem_append_right _ hc)
  have hnospace {c : Char} (hc : text.head? = some c ∨ text.getLast? = some c) :
      c.isWhitespace = false := by
    simpa [← Bool.not_eq_true, isWhitespace_iff] using hends c hc
  have hnohash : ∀ c ∈ lead ++ text ++ trail, c ≠ '#' := by
    simp only [List.mem_append]
    rintro c ((hc | hc) | hc)
    · exact ne_hash_of_isWhitespace (hlead c hc)
    · exact hhash c hc
    · exact ne_hash_of_isWhitespace (htrail c hc)
  have htext : effectiveText line = text := by
    rw [hline, effectiveText_append hnohash htail, trim_append_right htrail, trim_append_left hlead]
    exact trim_eq_self (fun c hc => hnospace (.inl hc)) (fun c hc => hnospace (.inr hc))
  refine ⟨fun hdigits n hn => ?_, loadLine_of_not_digits htext⟩
  rw [loadLine_of_digits htext hne hdigits, binaryValue_eq_ofDigits, hn]

/-! Loading line after line (R99, R100). -/

theorem loadLines_skip {line : List Char} (h : loadLine line = .ok none) (lines : List (List Char))
    (next : Nat) (mem : Memory) : loadLines (line :: lines) next mem = loadLines lines next mem := by
  simp only [loadLines, h]

theorem loadLines_store {line : List Char} {v : Byte} (h : loadLine line = .ok (some v))
    {next : Nat} (hnext : next ≤ 255) (lines : List (List Char)) (mem : Memory) :
    loadLines (line :: lines) next mem = loadLines lines (next + 1) (mem.write next v) := by
  simp only [loadLines, h, if_neg (Nat.not_lt.mpr hnext)]

theorem loadLines_full {line : List Char} {v : Byte} (h : loadLine line = .ok (some v))
    {next : Nat} (hnext : 255 < next) (lines : List (List Char)) (mem : Memory) :
    loadLines (line :: lines) next mem = .error (.memoryIndex next) := by
  simp only [loadLines, h, if_pos hnext]

/-- Lines that load alike from everywhere load alike after any others. -/
theorem loadLines_append_congr {lines lines' : List (List Char)}
    (h : ∀ next mem, loadLines lines next mem = loadLines lines' next mem)
    (before : List (List Char)) (next : Nat) (mem : Memory) :
    loadLines (before ++ lines) next mem = loadLines (before ++ lines') next mem := by
  induction before generalizing next mem with
  | nil => exact h next mem
  | cons line before ih => simp only [List.cons_append, loadLines, ih]

theorem loadLine_blank {blank tail : List Char} (hblank : ∀ c ∈ blank, c.isWhitespace = true)
    (htail : tail = [] ∨ ∃ comment, tail = '#' :: comment) :
    loadLine (blank ++ tail) = .ok none := by
  refine loadLine_of_ineffective ?_
  rw [effectiveText_append (fun c hc => ne_hash_of_isWhitespace (hblank c hc)) htail,
    trim_whitespace hblank]

/-- Settles O56: such a line is skipped where it stands, so also after any others. -/
theorem loaderSkipsIneffectiveLines : Obligations.LoaderSkipsIneffectiveLines := by
  intro before after blank line next mem hblank hline
  have hblank (c) (hc : c ∈ blank) : c.isWhitespace = true := isWhitespace_iff.mpr (hblank c hc)
  have hskip : loadLine line = .ok none := by
    obtain rfl | ⟨comment, rfl⟩ := hline
    · simpa using loadLine_blank hblank (.inl rfl)
    · exact loadLine_blank hblank (.inr ⟨comment, rfl⟩)
  exact loadLines_append_congr (loadLines_skip hskip after) before next mem

/-! File images (R38, R100): one literal of eight digits a line. -/

theorem byteDigits_digits (v : Byte) : ∀ c ∈ byteDigits v, c = '0' ∨ c = '1' := by
  simp only [byteDigits, List.mem_map]
  rintro _ ⟨k, -, rfl⟩
  split
  · exact .inr rfl
  · exact .inl rfl

theorem binaryValue_concat (cs : List Char) (b : Bool) :
    binaryValue (cs ++ [if b then '1' else '0']) = 2 * binaryValue cs + b.toNat := by
  cases b <;> simp [binaryValue]

/-- The first `n` digits of a byte are the value of its `n` high bits. -/
theorem binaryValue_highDigits (v : Byte) {n : Nat} (hn : n ≤ 8) :
    binaryValue ((List.range n).map fun k => if v.getLsbD (7 - k) then '1' else '0') =
      v.toNat / 2 ^ (8 - n) := by
  induction n with
  | zero => exact (Nat.div_eq_of_lt v.isLt).symm
  | succ n ih =>
    have hhalf : v.toNat / 2 ^ (8 - n) = v.toNat / 2 ^ (7 - n) / 2 := by
      rw [Nat.div_div_eq_div_mul, ← Nat.pow_succ, show 8 - n = 7 - n + 1 by omega]
    rw [List.range_succ, List.map_append, List.map_singleton, binaryValue_concat, ih (by omega),
      hhalf, BitVec.getLsbD, Nat.toNat_testBit, Nat.div_add_mod, Nat.succ_sub_succ]

theorem binaryValue_byteDigits (v : Byte) : binaryValue (byteDigits v) = v.toNat := by
  simpa [byteDigits] using binaryValue_highDigits v (le_refl 8)

theorem ne_newline_of_mem_byteDigits {v : Byte} : ∀ c ∈ byteDigits v, c ≠ '\n' := by
  rintro _ hc rfl
  exact absurd (byteDigits_digits v _ hc) (by decide)

theorem loadLine_byteDigits (v : Byte) : loadLine (byteDigits v) = .ok (some v) := by
  have hword : IsWord (byteDigits v) := by
    refine ⟨by simp [byteDigits], fun c hc => ?_⟩
    obtain rfl | rfl := byteDigits_digits v c hc <;> decide
  have hnohash : ∀ c ∈ byteDigits v, c ≠ '#' := by
    rintro _ hc rfl
    exact absurd (byteDigits_digits v _ hc) (by decide)
  have htext : effectiveText (byteDigits v) = byteDigits v := by
    simpa [hword.trim] using effectiveText_append hnohash (.inl rfl)
  rw [loadLine_of_digits htext hword.1 (byteDigits_digits v), binaryValue_byteDigits,
    if_pos (Nat.le_of_lt_succ v.isLt), BitVec.ofNat_toNat, BitVec.setWidth_eq]

theorem splitLines_append {line : List Char} (hline : ∀ c ∈ line, c ≠ '\n') (cs : List Char) :
    splitLines (line ++ '\n' :: cs) = line :: splitLines cs := by
  induction line with
  | nil => simp [splitLines]
  | cons c line ih =>
    obtain ⟨hc, hline⟩ := List.forall_mem_cons.mp hline
    simp [splitLines, hc, ih hline]

theorem splitLines_fileImage (bs : List Byte) :
    splitLines (fileImage bs) = bs.map byteDigits ++ [[]] := by
  induction bs with
  | nil => rfl
  | cons v bs ih =>
    have hcons : fileImage (v :: bs) = byteDigits v ++ '\n' :: fileImage bs := by simp [fileImage]
    rw [hcons, splitLines_append ne_newline_of_mem_byteDigits, ih, List.map_cons, List.cons_append]

/-- The empty text after the image's last newline takes no address. -/
theorem load_fileImage (bs : List Byte) :
    load (some (fileImage bs)) = loadLines (bs.map byteDigits) 0 [] := by
  have hlast := loaderSkipsIneffectiveLines (bs.map byteDigits) [] [] [] 0 [] (by simp) (.inl rfl)
  rw [List.append_nil] at hlast
  rw [← hlast, ← splitLines_fileImage]
  rfl

/-- A canonical memory that holds the bytes `bs` from address 0 and 0 elsewhere. -/
def Memory.Holds (mem : Memory) (bs : List Byte) : Prop :=
  mem.wf = true ∧ ∀ k, Memory.read mem k = bs.getD k 0#8

theorem Memory.holds_nil : Memory.Holds [] [] := ⟨rfl, fun _ => rfl⟩

theorem Memory.Holds.write {mem : Memory} {bs : List Byte} (h : mem.Holds bs)
    (hlen : bs.length < 256) (v : Byte) : Memory.Holds (mem.write bs.length v) (bs ++ [v]) := by
  obtain ⟨hwf, hread⟩ := h
  refine ⟨Memory.wf_write v hwf hlen, fun k => ?_⟩
  rw [Memory.read_write hwf, hread]
  rcases Nat.lt_trichotomy k bs.length with hk | rfl | hk
  · rw [if_neg hk.ne, List.getD_append _ _ _ _ hk]
  · simp
  · rw [if_neg hk.ne', List.getD_eq_default _ _ hk.le, List.getD_eq_default _ _ (by simpa using hk)]

/-- Loading goes on behind the bytes already loaded. -/
theorem loadLines_byteDigits {bs : List Byte} {mem : Memory} {loaded : List Byte}
    (h : mem.Holds loaded) (hlen : loaded.length + bs.length ≤ 256) :
    ∃ mem', loadLines (bs.map byteDigits) loaded.length mem = .ok mem' ∧
      mem'.Holds (loaded ++ bs) := by
  induction bs generalizing loaded mem with
  | nil => exact ⟨mem, rfl, by rwa [List.append_nil]⟩
  | cons v bs ih =>
    rw [List.length_cons] at hlen
    obtain ⟨mem', hload, hmem'⟩ := ih (h.write (by omega) v)
      (by rw [List.length_append, List.length_singleton]; omega)
    refine ⟨mem', ?_, by simpa using hmem'⟩
    rw [List.map_cons, loadLines_store (loadLine_byteDigits v) (by omega), ← hload,
      List.length_append, List.length_singleton]

theorem loadLines_byteDigits_overflow {bs : List Byte} {next : Nat} (mem : Memory)
    (hnext : next ≤ 256) (hlen : 256 < next + bs.length) :
    loadLines (bs.map byteDigits) next mem = .error (.memoryIndex 256) := by
  induction bs generalizing next mem with
  | nil => exact absurd hlen (by simpa using hnext)
  | cons v bs ih =>
    rw [List.length_cons] at hlen
    rw [List.map_cons]
    rcases Nat.lt_or_ge 255 next with hfull | hroom
    · rw [loadLines_full (loadLine_byteDigits v) hfull, show next = 256 by omega]
    · rw [loadLines_store (loadLine_byteDigits v) hroom, ih _ (by omega) (by omega)]

/-- Settles O55: the image's lines are the bytes' literals, loaded in order from address 0. -/
theorem loadStoresBytesFromZero : Obligations.LoadStoresBytesFromZero := by
  intro bs
  rw [load_fileImage]
  refine ⟨fun hlen => ?_, fun hlen => ?_⟩
  · exact loadLines_byteDigits Memory.holds_nil (by simpa using hlen)
  · exact loadLines_byteDigits_overflow [] (Nat.zero_le 256) (by simpa using hlen)

end Sys2Proof.Machine
